-- ==== Sys2Proof/Word.lean ====
section
/-! DEFINITION. The word types of the CHIP-8 core: bytes, 16-bit words, the instruction fields
(spec/00_scope.md R7, R8). Every value of the machine is an unsigned integer (R8). -/

namespace Sys2Proof

/-- A memory cell, a general register or a timer (R8). -/
abbrev Byte := BitVec 8

/-- `I`, `pc`, a call-stack entry or an instruction word (R8, R80). -/
abbrev Word := BitVec 16

/-- A 4-bit field of an instruction word that is a value: `n`, or bits the decoder ignores (R7). -/
abbrev Nibble := BitVec 4

/-- The 12-bit immediate `nnn` (R7, R82). -/
abbrev Addr12 := BitVec 12

/-- The number of a general register, the `x` or `y` of an instruction (10_state.md R21: "a decoded
index is always in 0 to 15"). -/
abbrev Reg := Fin 16

/-- `V[15]`, the flag register (10_state.md R22). -/
abbrev vf : Reg := 15

/-- `zext_16` of an 8-bit value (00_scope.md R9). -/
abbrev zext8 (b : Byte) : Word := b.setWidth 16

/-- `zext_16` of the 12-bit immediate (30_encoding.md R82). -/
abbrev zext12 (a : Addr12) : Word := a.setWidth 16

/-- The one-bit value of a flag as a register byte: 1 or 0 (10_state.md R22). -/
def flagByte (b : Bool) : Byte := if b then 1#8 else 0#8

end Sys2Proof
end

