-- ==== Sys2Proof/Machine/Flags.lean ====
section
/-! DEFINITION. The flag values of spec/10_state.md R22, each a comparison over the natural numbers (00_scope.md
R8) or one bit of the operand. The collision flag of DRW is computed by Screen.lean. -/

namespace Sys2Proof.Machine

/-- 8xy4: carry out of the 8-bit unsigned addition (42_family_8_alu.md R124). -/
def carryOfAdd (a b : Byte) : Bool := decide (255 < a.toNat + b.toNat)

/-- 8xy5 and 8xy7: the minuend is strictly greater than the subtrahend (R125, R127, R129: "for equal
operands the flag is 0"). -/
def strictlyGreater (a b : Byte) : Bool := decide (b.toNat < a.toNat)

/-- 8xy6: the bit shifted out on the right, `V[x] & 1` (R126). -/
def bitOutRight (a : Byte) : Bool := a.getLsbD 0

/-- 8xyE: the bit shifted out on the left, `(V[x] >> 7) & 1` (R128). -/
def bitOutLeft (a : Byte) : Bool := a.getLsbD 7

/-- Fx1E: carry out of the 16-bit addition (45_family_F.md R164). -/
def carryOfIndex (i : Word) (a : Byte) : Bool := decide (65535 < i.toNat + a.toNat)

end Sys2Proof.Machine
end

