-- ==== Sys2Proof/Syntax.lean ====
section
/-! DEFINITION. The 35 instructions of spec/30_encoding.md R84, one constructor per row of
spec/opcode_table.json, in its order. Bits the decoder ignores (R86, R90, R102) stay in the term, so that
a word and its instruction determine each other (assumption log 7). -/

namespace Sys2Proof

/-- An instruction of the machine (30_encoding.md R84). -/
inductive Instr where
  /-- 00E0, `CLS` (R100); `z` is w[11:8], not examined (R86). -/
  | cls (z : Nibble)
  /-- 00EE, `RET` (R101); `z` is w[11:8], not examined (R86). -/
  | ret (z : Nibble)
  /-- 0nnn, `NOP`: family 0 with any other low byte (R102). -/
  | nop (nnn : Addr12)
  /-- 1nnn, `JP nnn` (R103). -/
  | jp (nnn : Addr12)
  /-- 2nnn, `CALL nnn` (R104). -/
  | call (nnn : Addr12)
  /-- 3xnn, `SE Vx, nn` (R110). -/
  | seImm (x : Reg) (nn : Byte)
  /-- 4xnn, `SNE Vx, nn` (R111). -/
  | sneImm (x : Reg) (nn : Byte)
  /-- 5xy0, `SE Vx, Vy` (R112); `z` is w[3:0], not examined (R90). -/
  | seReg (x y : Reg) (z : Nibble)
  /-- 6xnn, `LD Vx, nn` (R113). -/
  | ldImm (x : Reg) (nn : Byte)
  /-- 7xnn, `ADD Vx, nn` (R114). -/
  | addImm (x : Reg) (nn : Byte)
  /-- 8xy0, `LD Vx, Vy` (R120). -/
  | mov (x y : Reg)
  /-- 8xy1, `OR Vx, Vy` (R121). -/
  | or (x y : Reg)
  /-- 8xy2, `AND Vx, Vy` (R122). -/
  | and (x y : Reg)
  /-- 8xy3, `XOR Vx, Vy` (R123). -/
  | xor (x y : Reg)
  /-- 8xy4, `ADD Vx, Vy` (R124). -/
  | add (x y : Reg)
  /-- 8xy5, `SUB Vx, Vy` (R125). -/
  | sub (x y : Reg)
  /-- 8xy6, `SHR Vx` (R126); `y` is decoded and not used (R90). -/
  | shr (x y : Reg)
  /-- 8xy7, `SUBN Vx, Vy` (R127): the destination is `V[y]`. -/
  | subn (x y : Reg)
  /-- 8xyE, `SHL Vx` (R128); `y` is decoded and not used (R90). -/
  | shl (x y : Reg)
  /-- 9xy0, `SNE Vx, Vy` (R140); `z` is w[3:0], not examined (R90). -/
  | sneReg (x y : Reg) (z : Nibble)
  /-- Annn, `LD I, nnn` (R141). -/
  | ldI (nnn : Addr12)
  /-- Bnnn, `JP V0, nnn` (R142). -/
  | jpV0 (nnn : Addr12)
  /-- Cxnn, `RND Vx, nn` (R143). -/
  | rnd (x : Reg) (nn : Byte)
  /-- Dxyn, `DRW Vx, Vy, n` (R144). -/
  | drw (x y : Reg) (n : Nibble)
  /-- Ex9E, `SKP Vx` (R150). -/
  | skp (x : Reg)
  /-- ExA1, `SKNP Vx` (R151). -/
  | sknp (x : Reg)
  /-- Fx07, `LD Vx, DT` (R160). -/
  | ldVxDt (x : Reg)
  /-- Fx0A, `LD Vx, K` (R161). -/
  | ldVxK (x : Reg)
  /-- Fx15, `LD DT, Vx` (R162). -/
  | ldDtVx (x : Reg)
  /-- Fx18, `LD ST, Vx` (R163). -/
  | ldStVx (x : Reg)
  /-- Fx1E, `ADD I, Vx` (R164). -/
  | addI (x : Reg)
  /-- Fx29, `LD F, Vx` (R165). -/
  | ldF (x : Reg)
  /-- Fx33, `LD B, Vx` (R166). -/
  | ldB (x : Reg)
  /-- Fx55, `LD [I], Vx` (R167). -/
  | stRegs (x : Reg)
  /-- Fx65, `LD Vx, [I]` (R168). -/
  | ldRegs (x : Reg)
  deriving DecidableEq, Repr

/-- The identifier of the instruction's row in spec/opcode_table.json (30_encoding.md R92). -/
def Instr.mnemonic : Instr → String
  | .cls _ => "CLS"
  | .ret _ => "RET"
  | .nop _ => "NOP"
  | .jp _ => "JP"
  | .call _ => "CALL"
  | .seImm _ _ => "SE_IMM"
  | .sneImm _ _ => "SNE_IMM"
  | .seReg _ _ _ => "SE_REG"
  | .ldImm _ _ => "LD_IMM"
  | .addImm _ _ => "ADD_IMM"
  | .mov _ _ => "MOV"
  | .or _ _ => "OR"
  | .and _ _ => "AND"
  | .xor _ _ => "XOR"
  | .add _ _ => "ADD"
  | .sub _ _ => "SUB"
  | .shr _ _ => "SHR"
  | .subn _ _ => "SUBN"
  | .shl _ _ => "SHL"
  | .sneReg _ _ _ => "SNE_REG"
  | .ldI _ => "LD_I"
  | .jpV0 _ => "JP_V0"
  | .rnd _ _ => "RND"
  | .drw _ _ _ => "DRW"
  | .skp _ => "SKP"
  | .sknp _ => "SKNP"
  | .ldVxDt _ => "LD_VX_DT"
  | .ldVxK _ => "LD_VX_K"
  | .ldDtVx _ => "LD_DT_VX"
  | .ldStVx _ => "LD_ST_VX"
  | .addI _ => "ADD_I"
  | .ldF _ => "LD_F"
  | .ldB _ => "LD_B"
  | .stRegs _ => "ST_REGS"
  | .ldRegs _ => "LD_REGS"

end Sys2Proof
end

