-- ==== Sys2Proof/WellFormed.lean ====
section
/-! DEFINITION. Which terms of `Instr` are instructions of the machine. Every field but one takes every
value of its type; the exception is NOP, whose word must not be a CLS or a RET (spec/30_encoding.md R86, R92:
"`NOP nnn` must not have low byte 0xE0 or 0xEE"). -/

namespace Sys2Proof

/-- The low byte of `nnn`, which is the low byte of the word 0nnn (30_encoding.md R81). -/
def lowByte (nnn : Addr12) : Byte := nnn.setWidth 8

/-- A NOP is not a CLS: its low byte is not 0xE0 (R86, R102). -/
def nopIsNotCls (nnn : Addr12) : Bool := lowByte nnn != 0xE0#8

/-- A NOP is not a RET: its low byte is not 0xEE (R86, R102). -/
def nopIsNotRet (nnn : Addr12) : Bool := lowByte nnn != 0xEE#8

/-- The well-formedness check. -/
def Instr.wellFormed : Instr → Bool
  | .nop nnn => nopIsNotCls nnn && nopIsNotRet nnn
  | .cls _ | .ret _ | .jp _ | .call _ | .seImm _ _ | .sneImm _ _ | .seReg _ _ _ | .ldImm _ _
  | .addImm _ _ | .mov _ _ | .or _ _ | .and _ _ | .xor _ _ | .add _ _ | .sub _ _ | .shr _ _
  | .subn _ _ | .shl _ _ | .sneReg _ _ _ | .ldI _ | .jpV0 _ | .rnd _ _ | .drw _ _ _ | .skp _
  | .sknp _ | .ldVxDt _ | .ldVxK _ | .ldDtVx _ | .ldStVx _ | .addI _ | .ldF _ | .ldB _
  | .stRegs _ | .ldRegs _ => true

end Sys2Proof
end

