-- ==== Sys2Proof/Decode.lean ====
section
/-! DEFINITION. The instruction decoder (spec/30_encoding.md R83 step 2, R85 to R91), total on any bytes,
and the encoder from the same map (R84). -/

namespace Sys2Proof

/-- Why a decoder gives no instruction (30_encoding.md R91). -/
inductive Reject where
  /-- Fewer than two bytes: no word (R80). -/
  | truncated
  /-- Family 8 with the reserved low nibble `n` (R87): a no-op where `RESERVED_8_NOP` holds it. -/
  | reservedFamily8 (n : Nibble)
  /-- Family E with a low byte other than 0x9E and 0xA1 (R88). -/
  | undefinedFamilyE (nn : Byte)
  /-- Family F with a low byte other than the nine defined ones (R89). -/
  | undefinedFamilyF (nn : Byte)
  deriving DecidableEq, Repr

/-! ## Fields (00_scope.md R7) -/

/-- `w[15:12]`, the family. -/
def Word.family (w : Word) : Nibble := w.extractLsb' 12 4

/-- `w[11:8]` as bits. -/
def Word.nib2 (w : Word) : Nibble := w.extractLsb' 8 4

/-- `w[7:4]` as bits. -/
def Word.nib1 (w : Word) : Nibble := w.extractLsb' 4 4

/-- `n = w[3:0]`. -/
def Word.n (w : Word) : Nibble := w.extractLsb' 0 4

/-- `x = w[11:8]`, a register number. -/
def Word.x (w : Word) : Reg := w.nib2.toFin

/-- `y = w[7:4]`, a register number. -/
def Word.y (w : Word) : Reg := w.nib1.toFin

/-- `nn = w[7:0]`. -/
def Word.nn (w : Word) : Byte := w.extractLsb' 0 8

/-- `nnn = w[11:0]`. -/
def Word.nnn (w : Word) : Addr12 := w.extractLsb' 0 12

/-- The word of two bytes, big-endian: the byte at the lower address is the high one
(20_memory.md R54). -/
def wordOfBytes (hi lo : Byte) : Word := hi ++ lo

/-- The high byte of a word, stored at the lower address (R54). -/
def Word.hi (w : Word) : Byte := w.extractLsb' 8 8

/-- The low byte of a word, stored at the higher address (R54). -/
def Word.lo (w : Word) : Byte := w.extractLsb' 0 8

/-! ## The two-level dispatch (R85 to R90) -/

/-- Family 0: sub-dispatch on the low byte (R86). -/
def decodeFamily0 (w : Word) : Instr :=
  if w.nn = 0xE0#8 then .cls w.nib2
  else if w.nn = 0xEE#8 then .ret w.nib2
  else .nop w.nnn

/-- Family 8: sub-dispatch on the low nibble (R87). -/
def decodeFamily8 (w : Word) : Except Reject Instr :=
  match w.n.toNat with
  | 0x0 => .ok (.mov w.x w.y)
  | 0x1 => .ok (.or w.x w.y)
  | 0x2 => .ok (.and w.x w.y)
  | 0x3 => .ok (.xor w.x w.y)
  | 0x4 => .ok (.add w.x w.y)
  | 0x5 => .ok (.sub w.x w.y)
  | 0x6 => .ok (.shr w.x w.y)
  | 0x7 => .ok (.subn w.x w.y)
  | 0xE => .ok (.shl w.x w.y)
  | _ => .error (.reservedFamily8 w.n)

/-- Family E: sub-dispatch on the low byte (R88). -/
def decodeFamilyE (w : Word) : Except Reject Instr :=
  match w.nn.toNat with
  | 0x9E => .ok (.skp w.x)
  | 0xA1 => .ok (.sknp w.x)
  | _ => .error (.undefinedFamilyE w.nn)

/-- Family F: sub-dispatch on the low byte (R89). -/
def decodeFamilyF (w : Word) : Except Reject Instr :=
  match w.nn.toNat with
  | 0x07 => .ok (.ldVxDt w.x)
  | 0x0A => .ok (.ldVxK w.x)
  | 0x15 => .ok (.ldDtVx w.x)
  | 0x18 => .ok (.ldStVx w.x)
  | 0x1E => .ok (.addI w.x)
  | 0x29 => .ok (.ldF w.x)
  | 0x33 => .ok (.ldB w.x)
  | 0x55 => .ok (.stRegs w.x)
  | 0x65 => .ok (.ldRegs w.x)
  | _ => .error (.undefinedFamilyF w.nn)

/-- The instruction of a word, or why there is none: the family nibble selects one of 16 entries
(R85). -/
def decodeWord (w : Word) : Except Reject Instr :=
  match w.family.toNat with
  | 0x0 => .ok (decodeFamily0 w)
  | 0x1 => .ok (.jp w.nnn)
  | 0x2 => .ok (.call w.nnn)
  | 0x3 => .ok (.seImm w.x w.nn)
  | 0x4 => .ok (.sneImm w.x w.nn)
  | 0x5 => .ok (.seReg w.x w.y w.n)
  | 0x6 => .ok (.ldImm w.x w.nn)
  | 0x7 => .ok (.addImm w.x w.nn)
  | 0x8 => decodeFamily8 w
  | 0x9 => .ok (.sneReg w.x w.y w.n)
  | 0xA => .ok (.ldI w.nnn)
  | 0xB => .ok (.jpV0 w.nnn)
  | 0xC => .ok (.rnd w.x w.nn)
  | 0xD => .ok (.drw w.x w.y w.n)
  | 0xE => decodeFamilyE w
  | _ => decodeFamilyF w

/-- The instruction at the head of a list of bytes, and the bytes after it (R80, 20_memory.md R54). -/
def decode : List Byte → Except Reject (Instr × List Byte)
  | hi :: lo :: rest => (decodeWord (wordOfBytes hi lo)).map (fun i => (i, rest))
  | [_] => .error .truncated
  | [] => .error .truncated

/-! ## The encoder (R81, R84) -/

/-- Format NNN: family, `nnn` (R81). -/
def wordNNN (family : Nibble) (nnn : Addr12) : Word := family ++ nnn

/-- The 4 bits that name a register (R81). -/
def regBits (x : Reg) : Nibble := BitVec.ofFin x

/-- Format XNN: family, `x`, `nn` (R81). -/
def wordXNN (family : Nibble) (x : Reg) (nn : Byte) : Word := family ++ (regBits x ++ nn)

/-- Format XYN: family, `x`, `y`, `n` (R81). -/
def wordXYN (family : Nibble) (x y : Reg) (n : Nibble) : Word :=
  family ++ (regBits x ++ (regBits y ++ n))

/-- Format ZNN: 0, bits not examined, sub-opcode (R81). -/
def wordZNN (z : Nibble) (nn : Byte) : Word := 0#4 ++ (z ++ nn)

/-- The word of an instruction (R84). -/
def encode : Instr → Word
  | .cls z => wordZNN z 0xE0#8
  | .ret z => wordZNN z 0xEE#8
  | .nop nnn => wordNNN 0x0#4 nnn
  | .jp nnn => wordNNN 0x1#4 nnn
  | .call nnn => wordNNN 0x2#4 nnn
  | .seImm x nn => wordXNN 0x3#4 x nn
  | .sneImm x nn => wordXNN 0x4#4 x nn
  | .seReg x y z => wordXYN 0x5#4 x y z
  | .ldImm x nn => wordXNN 0x6#4 x nn
  | .addImm x nn => wordXNN 0x7#4 x nn
  | .mov x y => wordXYN 0x8#4 x y 0x0#4
  | .or x y => wordXYN 0x8#4 x y 0x1#4
  | .and x y => wordXYN 0x8#4 x y 0x2#4
  | .xor x y => wordXYN 0x8#4 x y 0x3#4
  | .add x y => wordXYN 0x8#4 x y 0x4#4
  | .sub x y => wordXYN 0x8#4 x y 0x5#4
  | .shr x y => wordXYN 0x8#4 x y 0x6#4
  | .subn x y => wordXYN 0x8#4 x y 0x7#4
  | .shl x y => wordXYN 0x8#4 x y 0xE#4
  | .sneReg x y z => wordXYN 0x9#4 x y z
  | .ldI nnn => wordNNN 0xA#4 nnn
  | .jpV0 nnn => wordNNN 0xB#4 nnn
  | .rnd x nn => wordXNN 0xC#4 x nn
  | .drw x y n => wordXYN 0xD#4 x y n
  | .skp x => wordXNN 0xE#4 x 0x9E#8
  | .sknp x => wordXNN 0xE#4 x 0xA1#8
  | .ldVxDt x => wordXNN 0xF#4 x 0x07#8
  | .ldVxK x => wordXNN 0xF#4 x 0x0A#8
  | .ldDtVx x => wordXNN 0xF#4 x 0x15#8
  | .ldStVx x => wordXNN 0xF#4 x 0x18#8
  | .addI x => wordXNN 0xF#4 x 0x1E#8
  | .ldF x => wordXNN 0xF#4 x 0x29#8
  | .ldB x => wordXNN 0xF#4 x 0x33#8
  | .stRegs x => wordXNN 0xF#4 x 0x55#8
  | .ldRegs x => wordXNN 0xF#4 x 0x65#8

/-- The bytes of an instruction, as memory holds them (20_memory.md R54). -/
def encodeBytes (i : Instr) : List Byte := [(encode i).hi, (encode i).lo]

/-! ## The table's numbering of bits -/

/-- The word whose bits, numbered as spec/opcode_table.json numbers them, are the low `nbits` bits
of `w`; the bits above are 0. Every instruction is one 16-bit word, so bit `k` of the table is bit `k` of
the word (R80). -/
def tableWord (nbits w : Nat) : Word := BitVec.ofNat 16 (w % 2 ^ min nbits 16)

/-- The instruction the decoder reads from the bytes of a table word (none where it refuses). -/
def decodeTableWord (nbits w : Nat) : Option Instr :=
  match decode [(tableWord nbits w).hi, (tableWord nbits w).lo] with
  | .ok (i, _) => some i
  | .error _ => none

end Sys2Proof
end

