-- ==== Sys2Proof/Config.lean ====
section
/-! DEFINITION. The parameters: those the source fixes (spec/00_scope.md R5), those it leaves to the
implementation (R6), and the free values (R6 `rnd`, 10_state.md R44). -/

namespace Sys2Proof

/-- `MEM_SIZE`: bytes of memory (00_scope.md R5). -/
abbrev memSize : Nat := 4096

/-- `NREG`: general registers (R5). -/
abbrev nReg : Nat := 16

/-- `STACK_DEPTH`: return addresses the call stack holds (R5). -/
abbrev stackDepth : Nat := 16

/-- `FB_ROWS` (R5). -/
abbrev fbRows : Nat := 32

/-- `FB_COLS` (R5). -/
abbrev fbCols : Nat := 64

/-- `NKEYS` (R5). -/
abbrev nKeys : Nat := 16

/-- `ROM_MAX`: the largest image LOAD accepts, in bytes (R5). -/
abbrev romMax : Nat := 2048

/-- `INSN_BYTES` (R5). -/
abbrev insnBytes : Nat := 2

/-- `FONT_GLYPHS` times `GLYPH_BYTES`: the bytes of the font (R5, 20_memory.md R51). -/
abbrev fontBytes : Nat := 80

/-- What one implementation fixes and the source leaves open (00_scope.md R6). The defaults are in
Machine/Defaults.lean; no rule but RESET, LOAD, the reset content of memory and the reserved nibbles
of family 8 reads these. -/
structure Config where
  /-- `ENTRY_ADDR`, 0 to 0x800: where LOAD places the image and where reset puts `pc` (R6, D16). -/
  entryAddr : Fin 2049
  /-- `FONT`: memory 0x000 to 0x04F after reset (R6, 20_memory.md R53, D17). -/
  font : Vector Byte 80
  /-- `RESERVED_8_NOP`: the reserved low nibbles of family 8 that only advance `pc` (R6,
  42_family_8_alu.md R130, D5). A number that is not a reserved nibble has no effect. -/
  reserved8Nop : List Nibble
  deriving DecidableEq, Repr

/-- FREE VALUE: the input `key_pressed` of the STEP numbered by the counter `State.draws`, where the
schedule gives none (10_state.md R44; assumption log 4). -/
opaque Config.freeKeyPressed : Nat → Bool

/-- FREE VALUE: the input `rnd` of the STEP numbered by the counter `State.draws`, where the schedule
gives none: "the block places no law on it" (10_state.md R44, D14; assumption log 4). -/
opaque Config.freeRnd : Nat → Byte

end Sys2Proof
end

