-- ==== Sys2Proof/Machine/Defaults.lean ====
section
/-! DEFINITION. The default values of the parameters the source leaves open (spec/00_scope.md R6). -/

namespace Sys2Proof

/-- `ENTRY_ADDR`, default 0x200 (00_scope.md R6, D16). -/
def defaultEntryAddr : Fin 2049 := 0x200

/-- `FONT`, default the table of 20_memory.md R53, digits 0 to F, five bytes each (D17).
PRESUMED: the spec takes these bytes from general knowledge (assumption log 2). -/
def defaultFont : Vector Byte 80 :=
  #v[0xF0, 0x90, 0x90, 0x90, 0xF0,  0x20, 0x60, 0x20, 0x20, 0x70,
     0xF0, 0x10, 0xF0, 0x80, 0xF0,  0xF0, 0x10, 0xF0, 0x10, 0xF0,
     0x90, 0x90, 0xF0, 0x10, 0x10,  0xF0, 0x80, 0xF0, 0x10, 0xF0,
     0xF0, 0x80, 0xF0, 0x90, 0xF0,  0xF0, 0x10, 0x20, 0x40, 0x40,
     0xF0, 0x90, 0xF0, 0x90, 0xF0,  0xF0, 0x90, 0xF0, 0x10, 0xF0,
     0xF0, 0x90, 0xF0, 0x90, 0x90,  0xE0, 0x90, 0xE0, 0x90, 0xE0,
     0xF0, 0x80, 0x80, 0x80, 0xF0,  0xE0, 0x90, 0x90, 0x90, 0xE0,
     0xF0, 0x80, 0xF0, 0x80, 0xF0,  0xF0, 0x80, 0xF0, 0x80, 0x80]

/-- `RESERVED_8_NOP`, default the empty set (00_scope.md R6, 30_encoding.md R87, D5; assumption
log 3). -/
def defaultReserved8Nop : List Nibble := []

/-- The machine with every parameter at the spec's default. -/
def Config.default : Config where
  entryAddr := defaultEntryAddr
  font := defaultFont
  reserved8Nop := defaultReserved8Nop

end Sys2Proof
end

