-- ==== Sys2Proof/Machine/Memory.lean ====
section
/-! DEFINITION. Memory as a list of the cells that differ from the content RESET gives (spec/20_memory.md
R50, R52), in one canonical form: addresses strictly rising, below 4096, no cell equal to the reset content. -/

namespace Sys2Proof.Machine

/-- The cells that differ from the reset content (assumption log 11). -/
abbrev Memory := List Host.Cell

/-- The reset content, which an unlisted address reads as: `FONT` at 0 to 79, 0 elsewhere (R52). -/
def Memory.background (font : Vector Byte 80) (a : Nat) : Byte := (font[a]?).getD 0#8

/-- The byte at an address (R50, R61 (4)); the bounds check is `firstOutOfRange`, in Ops.lean. -/
def Memory.read (font : Vector Byte 80) : Memory → Nat → Byte
  | [], a => Memory.background font a
  | (k, v) :: rest, a => if a = k then v else Memory.read font rest a

/-- A cell in front of a list, unless it equals the reset content. -/
def Memory.cons (font : Vector Byte 80) (a : Nat) (b : Byte) (m : Memory) : Memory :=
  if b = Memory.background font a then m else (a, b) :: m

/-- Storing one byte, keeping the canonical form. -/
def Memory.write (font : Vector Byte 80) : Memory → Nat → Byte → Memory
  | [], a, b => Memory.cons font a b []
  | (k, v) :: rest, a, b =>
    if a < k then Memory.cons font a b ((k, v) :: rest)
    else if a = k then Memory.cons font a b rest
    else (k, v) :: Memory.write font rest a b

/-- Storing consecutive bytes, the first at `a` (R55: every data store is a run of 1-byte writes). -/
def Memory.writeBytes (font : Vector Byte 80) (m : Memory) : Nat → List Byte → Memory
  | _, [] => m
  | a, b :: bs => Memory.writeBytes font (Memory.write font m a b) (a + 1) bs

/-- The canonical form. -/
abbrev Memory.wf (font : Vector Byte 80) (m : Memory) : Prop :=
  m.Pairwise (fun c d => c.1 < d.1) ∧
    ∀ c ∈ m, c.1 < memSize ∧ c.2 ≠ Memory.background font c.1

end Sys2Proof.Machine
end

