-- ==== Sys2Proof/Machine/State.lean ====
section
/-! DEFINITION. The state of the machine (spec/10_state.md R20), its parameters (00_scope.md R6), the
inputs, schedule and result of its operations (R37, R38, R44), its faults (60_exceptions.md R180), and reset
(R40). -/

namespace Sys2Proof.Machine

/-- The framebuffer: 32 rows of 64 cells, `true` is on (10_state.md R32). -/
abbrev Screen := Vector (Vector Bool 64) 32

/-- The keyboard snapshot: flag `k` is true when key `k` is down (10_state.md R33). -/
abbrev Keys := Vector Bool 16

/-- The inputs of one STEP (10_state.md R44). -/
structure Inputs where
  /-- "whether a key was pressed since the last cycle"; read by Fx0A only. -/
  keyPressed : Bool
  /-- The byte `random_byte()` returns; read by Cxnn only. -/
  rnd : Byte
  deriving DecidableEq, Repr

/-- An operation of the block (10_state.md R38), and all the moves the host has. DESIGN CHOICE, unsafe: the host
is assumed never to write registers, `pc`, the stack or memory other than through RESET and LOAD, nor to act during a
STEP (70_reset_and_hazards.md R212, "errs toward proving"; assumption log 16). -/
inductive HostOp where
  /-- RESET (R40). -/
  | reset
  /-- LOAD of an image (20_memory.md R59). -/
  | load (bytes : List Byte)
  /-- SET_KEYS (R39). -/
  | setKeys (keys : Keys)
  /-- TICK (R31). -/
  | tick
  /-- STEP with its two inputs (30_encoding.md R83). -/
  | step (keyPressed : Bool) (rnd : Byte)
  deriving DecidableEq, Repr

/-- What the last operation returned to the host (10_state.md R37, R38; assumption log 6). -/
inductive OpResult where
  /-- RESET, SET_KEYS and TICK return nothing. -/
  | nothing
  /-- `Ok{redraw, waiting}` of a STEP (R37). -/
  | stepOk (redraw waiting : Bool)
  /-- `Ok` of a LOAD (20_memory.md R59). -/
  | loadOk
  /-- `OversizedRom` of a LOAD (60_exceptions.md R181). -/
  | oversizedRom
  deriving DecidableEq, Repr

/-- The state of the machine. The fields up to `mem` are the whole of 10_state.md R20; `cfg` holds the
parameters of 00_scope.md R6; the last four are the model's own (assumption log 4, 5, 6). -/
structure State where
  /-- `V[0..15]` (R21). -/
  v : Vector Byte 16
  /-- `I` (R24). -/
  i : Word
  /-- `pc` (R25). -/
  pc : Word
  /-- `STACK[0..15]` (R27). -/
  stack : Vector Word 16
  /-- `SP`, 0 to 16 (R27, R35). -/
  sp : Fin 17
  /-- `DT` (R29). -/
  dt : Byte
  /-- `ST` (R30). -/
  st : Byte
  /-- `FB[0..31][0..63]` (R32). -/
  fb : Screen
  /-- `KB[0..15]` (R33). -/
  kb : Keys
  /-- `Mem[0..4095]` (20_memory.md R50). -/
  mem : Memory
  /-- The parameters of this machine; no operation changes them. -/
  cfg : Config
  /-- The inputs of the STEP in progress (R44). -/
  inputs : Inputs
  /-- The host's next operations, oldest first; when it is empty the host performs STEPs with free
  inputs (R38, 70_reset_and_hazards.md R212). -/
  schedule : List HostOp
  /-- How many STEPs have drawn free inputs. -/
  draws : Nat
  /-- What the last operation returned. -/
  result : OpResult
  deriving DecidableEq, Repr

/-- The faults of a STEP (60_exceptions.md R180, codes 2 to 6), with what the record holds. Each is the
spec's own outcome, so that stopping here is safe: the STEP changes nothing (R189) and the first fault is
the end of a run (R191). -/
inductive Fault where
  /-- Raised by CALL with `SP = 16` (R182). Safe: the spec's own fault. -/
  | stackOverflow (pc word : Word)
  /-- Raised by RET with `SP = 0` (R183). Safe: the spec's own fault. -/
  | stackUnderflow (pc word : Word)
  /-- Raised at decode by a word that is no instruction (R184, 30_encoding.md R91). Safe: the spec's own
  fault. -/
  | unknownInstruction (pc word : Word)
  /-- Raised at fetch (no word then), and by DRW, LD_B, ST_REGS and LD_REGS, for an address of 4096 or
  more (R185). Safe: the spec's own fault. -/
  | memoryOutOfRange (pc : Word) (word : Option Word) (addr : Nat)
  /-- Raised by SKP and SKNP with `V[x] > 15` (R186). Safe: the spec's own fault. -/
  | keyIndexOutOfRange (pc word : Word) (index : Nat)
  deriving DecidableEq, Repr

/-- Why the model gives an instruction no meaning. -/
inductive Refusal where
  /-- Raised by an arm of `exec` that has no meaning yet; no arm of this model does. Safe: the model
  stops where the hardware goes on. -/
  | notModelled (mnemonic : String)
  deriving DecidableEq, Repr

/-- The outcome of one operation. -/
abbrev Outcome := Host.Outcome State Fault Refusal

/-- The state after RESET of a machine with the parameters `cfg` (10_state.md R40, 20_memory.md R52),
with nothing scheduled (the last four fields: DESIGN CHOICE, assumption log 4, 5, 6). -/
def State.resetWith (cfg : Config) : State where
  v := Vector.replicate 16 0#8
  i := 0#16
  pc := BitVec.ofNat 16 cfg.entryAddr.val
  stack := Vector.replicate 16 0#16
  sp := 0
  dt := 0#8
  st := 0#8
  fb := Vector.replicate 32 (Vector.replicate 64 false)
  kb := Vector.replicate 16 false
  mem := []
  cfg := cfg
  inputs := { keyPressed := false, rnd := 0#8 }
  schedule := []
  draws := 0
  result := .nothing

/-- The machine right after reset, with the default parameters (R40, 70_reset_and_hazards.md R200). -/
def State.reset : State := State.resetWith Config.default

end Sys2Proof.Machine
end

