-- ==== Sys2Proof/Machine/Ops.lean ====
section
/-! DEFINITION. The shared operations: registers, memory with its bounds check, the call stack, how an
instruction completes, and raising a fault. An instruction computes every operand from the state at the start of the
STEP and then applies its writes, the flag before the result (spec/00_scope.md R10). -/

namespace Sys2Proof.Machine

/-! ## Raising a fault (60_exceptions.md R189, R190)

This machine enters no handler: a fault changes nothing, saves nothing and is delivered to the host as the
result of the STEP, so raising one is the whole of "taking an exception" and there is no return from it (R191). -/

/-- Ends the STEP with a fault and no state change (R189). -/
def raise (f : Fault) : Outcome := .fault f

/-- The record `Fault{code, pc, word, addr}` the host gets (R180). -/
structure FaultRecord where
  code : Nat
  pc : Word
  word : Option Word
  addr : Option Nat
  deriving DecidableEq, Repr

/-- The record of each fault, with the codes of R180. -/
def Fault.record : Fault → FaultRecord
  | .stackOverflow pc w => ⟨2, pc, some w, none⟩
  | .stackUnderflow pc w => ⟨3, pc, some w, none⟩
  | .unknownInstruction pc w => ⟨4, pc, some w, none⟩
  | .memoryOutOfRange pc w a => ⟨5, pc, w, some a⟩
  | .keyIndexOutOfRange pc w k => ⟨6, pc, some w, some k⟩

/-- The code of what a host operation returned: 1 for `OversizedRom`, 0 for no fault (R180, R181). -/
def OpResult.code : OpResult → Nat
  | .oversizedRom => 1
  | .nothing | .stepOk _ _ | .loadOk => 0

/-! ## General registers (10_state.md R21) -/

/-- `V[r]`. -/
def State.reg (s : State) (r : Reg) : Byte := s.v[r]

/-- `V[r] <- b`. -/
def State.setReg (s : State) (r : Reg) (b : Byte) : State :=
  { s with v := s.v.set r.val b r.isLt }

/-- `V[k], V[k+1], …` from a list of bytes; Fx65 gives at most sixteen (45_family_F.md R168). -/
def State.loadRegs (s : State) : Nat → List Byte → State
  | _, [] => s
  | k, b :: bs => State.loadRegs { s with v := s.v.setIfInBounds k b } (k + 1) bs

/-- `V[0]` to `V[x]` inclusive (45_family_F.md R167). -/
def State.regsUpTo (s : State) (x : Reg) : List Byte := s.v.toList.take (x.val + 1)

/-! ## Screen and keys (10_state.md R32, R33) -/

/-- `FB[r][c]`, as the host's renderer and DRW read it (R32, R41). -/
def State.cell (s : State) (r : Fin 32) (c : Fin 64) : Bool := s.fb[r][c]

/-- `KB[k]` (R33). -/
def State.key (s : State) (k : Fin 16) : Bool := s.kb[k]

/-- `STACK[k]` (R27). -/
def State.stackAt (s : State) (k : Fin 16) : Word := s.stack[k]

/-! ## Memory (20_memory.md R55, R57, R58) -/

/-- The first of the `len` addresses from `base` that is not an address of the memory: addresses are
natural numbers and never wrap (R57, R58). -/
def firstOutOfRange (base len : Nat) : Option Nat :=
  ((List.range len).map (fun k => base + k)).find? (fun a => decide (memSize ≤ a))

/-- `Mem[a]` for an address in range (R50). -/
def State.byteAt (s : State) (a : Nat) : Byte := s.mem.read s.cfg.font a

/-- One byte of memory as an observer reads it: none outside 0 to 4095 (R50, 10_state.md R41). -/
def State.readByte (s : State) (a : Nat) : Option Byte :=
  if a < memSize then some (s.byteAt a) else none

/-- The `len` bytes from `base` (R55). -/
def State.bytesFrom (s : State) (base len : Nat) : List Byte :=
  (List.range len).map (fun k => s.byteAt (base + k))

/-- Bytes stored from `base` on (R55). -/
def State.storeBytes (s : State) (base : Nat) (bs : List Byte) : State :=
  { s with mem := s.mem.writeBytes s.cfg.font base bs }

/-- An instruction `i` that touches the `len` bytes from `base`: every address is checked before anything
changes; the first one out of range is reported (R57, 60_exceptions.md R185, R188). -/
def accessing (i : Instr) (s : State) (base len : Nat) (after : State) : Outcome :=
  match firstOutOfRange base len with
  | some a => raise (.memoryOutOfRange s.pc (some (encode i)) a)
  | none => .next after

/-! ## The call stack (10_state.md R28) -/

/-- `push(v)`: `STACK[SP] <- v`, then `SP <- SP + 1`; none when `SP = 16`. -/
def State.push (s : State) (value : Word) : Option State :=
  if h : s.sp.val < stackDepth then
    some { s with stack := s.stack.set s.sp.val value h, sp := ⟨s.sp.val + 1, Nat.succ_lt_succ h⟩ }
  else none

/-- `pop()`: `SP <- SP - 1` and the entry there, which is not erased; none when `SP = 0`. -/
def State.pop (s : State) : Option (Word × State) :=
  if h : s.sp.val = 0 then none
  else
    some (s.stack[s.sp.val - 1]'(by have := s.sp.isLt; omega),
      { s with sp := ⟨s.sp.val - 1, by have := s.sp.isLt; omega⟩ })

/-! ## Completing a STEP (10_state.md R26, R37) -/

/-- The STEP succeeds with `pc` at its new value and the outputs `Ok{redraw, waiting=0}`. -/
def State.finish (s : State) (pc : Word) (redraw : Bool) : State :=
  { s with pc := pc, result := .stepOk redraw false }

/-- `pc <- pc + 2`, no output raised. -/
def State.advance (s : State) : State := s.finish (s.pc + 2#16) false

/-- `pc <- pc + 2`, `redraw = 1`. -/
def State.advanceRedraw (s : State) : State := s.finish (s.pc + 2#16) true

/-- A conditional skip: `pc <- pc + (c ? 4 : 2)`. -/
def State.skipIf (s : State) (c : Bool) : State := s.finish (s.pc + if c then 4#16 else 2#16) false

/-- A STEP that waits: success, no state change, `waiting = 1` (45_family_F.md R161). -/
def State.wait (s : State) : State := { s with result := .stepOk false true }

/-- The flag into `V[15]`, then the result into its register, which stands when both are `V[15]`
(10_state.md R23). -/
def State.writeFlagged (s : State) (flag : Bool) (dst : Reg) (res : Byte) : State :=
  (s.setReg vf (flagByte flag)).setReg dst res

/-- A skip on the key numbered by `V[x]`, skipping when its flag is `level`; an index above 15 faults
(44_family_E_keys.md R150, R151). -/
def State.skipOnKey (s : State) (i : Instr) (x : Reg) (level : Bool) : Outcome :=
  if h : (s.reg x).toNat < nKeys then .next (s.skipIf (s.kb[(s.reg x).toNat]'h == level))
  else raise (.keyIndexOutOfRange s.pc (encode i) (s.reg x).toNat)

end Sys2Proof.Machine
end

