-- ==== Sys2Proof/Machine/Alu.lean ====
section
/-! DEFINITION. Loads of an immediate, the register ALU and the random AND: families 6, 7, 8 and C
(spec/41_family_3_to_7.md R113, R114, 42_family_8_alu.md, 43_family_9_to_D.md R143). Operands are the
pre-instruction values; a flag is written before the result (00_scope.md R10). -/

namespace Sys2Proof.Machine

/-- R113. -/
def execLdImm (x : Reg) (nn : Byte) (s : State) : Outcome := .next (s.setReg x nn).advance

/-- R114: wraps, `V[15]` untouched. -/
def execAddImm (x : Reg) (nn : Byte) (s : State) : Outcome :=
  .next (s.setReg x (s.reg x + nn)).advance

/-- R120. -/
def execMov (x y : Reg) (s : State) : Outcome := .next (s.setReg x (s.reg y)).advance

/-- R121: no flag. -/
def execOr (x y : Reg) (s : State) : Outcome := .next (s.setReg x (s.reg x ||| s.reg y)).advance

/-- R122: no flag. -/
def execAnd (x y : Reg) (s : State) : Outcome := .next (s.setReg x (s.reg x &&& s.reg y)).advance

/-- R123: no flag. -/
def execXor (x y : Reg) (s : State) : Outcome := .next (s.setReg x (s.reg x ^^^ s.reg y)).advance

/-- R124. -/
def execAdd (x y : Reg) (s : State) : Outcome :=
  .next (s.writeFlagged (carryOfAdd (s.reg x) (s.reg y)) x (s.reg x + s.reg y)).advance

/-- R125: the flag is strict. -/
def execSub (x y : Reg) (s : State) : Outcome :=
  .next (s.writeFlagged (strictlyGreater (s.reg x) (s.reg y)) x (s.reg x - s.reg y)).advance

/-- R126: shifts `V[x]` by one; `V[y]` is neither read nor written. -/
def execShr (x _y : Reg) (s : State) : Outcome :=
  .next (s.writeFlagged (bitOutRight (s.reg x)) x (s.reg x >>> 1)).advance

/-- R127: the difference goes to `V[y]` (90_conflicts.md C1). -/
def execSubn (x y : Reg) (s : State) : Outcome :=
  .next (s.writeFlagged (strictlyGreater (s.reg y) (s.reg x)) y (s.reg y - s.reg x)).advance

/-- R128: shifts `V[x]` by one; `V[y]` is neither read nor written. -/
def execShl (x _y : Reg) (s : State) : Outcome :=
  .next (s.writeFlagged (bitOutLeft (s.reg x)) x (s.reg x <<< 1)).advance

/-- R143: `nn & rnd`, the input byte of this STEP. -/
def execRnd (x : Reg) (nn : Byte) (s : State) : Outcome :=
  .next (s.setReg x (nn &&& s.inputs.rnd)).advance

/-- R130: a reserved low nibble of family 8 that `RESERVED_8_NOP` holds; only `pc` advances. It is not
one of the 35 instructions. -/
def execReserved8 (s : State) : Outcome := .next s.advance

end Sys2Proof.Machine
end

