-- ==== Sys2Proof/Machine/Operands.lean ====
section
/-! DEFINITION. The operands an instruction computes from its fields and the state: targets, digits, keys
(spec/30_encoding.md R82). All are unsigned, with zero extension. -/

namespace Sys2Proof.Machine

/-- Bnnn: `zext_16(V[0]) + zext_16(nnn)` (43_family_9_to_D.md R142). -/
def indexedTarget (v0 : Byte) (nnn : Addr12) : Word := zext8 v0 + zext12 nnn

/-- Fx29: `V[x] * 5` in 16 bits (45_family_F.md R165). -/
def fontAddress (a : Byte) : Word := BitVec.ofNat 16 (a.toNat * 5)

/-- Fx33: hundreds, tens and ones, most significant first (R166). -/
def bcdDigits (a : Byte) : List Byte :=
  [BitVec.ofNat 8 (a.toNat / 100), BitVec.ofNat 8 (a.toNat / 10 % 10), BitVec.ofNat 8 (a.toNat % 10)]

/-- Fx0A: the lowest-numbered key that is down, if any (R161). -/
def firstKey (kb : Keys) : Option Byte := (kb.toList.findIdx? id).map (BitVec.ofNat 8)

end Sys2Proof.Machine
end

