-- ==== Sys2Proof/Machine/Screen.lean ====
section
/-! DEFINITION. The clipped XOR-blit of DRW, pixel by pixel as the pseudocode of spec/43_family_9_to_D.md R144
does it, and the cleared screen of CLS. -/

namespace Sys2Proof.Machine

/-- A screen being drawn on, and whether a lit cell was cleared so far (`hit` of R144). -/
structure Drawing where
  fb : Screen
  hit : Bool
  deriving DecidableEq, Repr

/-- The screen with every cell off (40_family_0_1_2.md R100). -/
def blankScreen : Screen := Vector.replicate 32 (Vector.replicate 64 false)

/-- One sprite bit at a row and a column: dropped outside the grid, else XORed into the cell (R144). -/
def drawPixel (row col : Nat) (bit : Bool) (d : Drawing) : Drawing :=
  if h : row < fbRows ∧ col < fbCols then
    { fb := d.fb.set row ((d.fb[row]'h.1).set col (((d.fb[row]'h.1)[col]'h.2) ^^ bit) h.2) h.1
      hit := d.hit || (bit && ((d.fb[row]'h.1)[col]'h.2)) }
  else d

/-- One sprite byte as a row of 8 pixels, bit 7 leftmost, from column `x0` (R144, D18). -/
def drawRow (x0 row : Nat) (b : Byte) (d : Drawing) : Drawing :=
  (List.range 8).foldl (fun d c => drawPixel row (x0 + c) (b.getLsbD (7 - c)) d) d

/-- The sprite's bytes as consecutive rows from `row` (R144). -/
def drawRows (x0 : Nat) : Nat → List Byte → Drawing → Drawing
  | _, [], d => d
  | row, b :: bs, d => drawRows x0 (row + 1) bs (drawRow x0 row b d)

/-- The whole sprite with its left edge at column `x0` and its top edge at row `y0`, neither reduced
modulo the grid (R144). -/
def drawSprite (x0 y0 : Nat) (bytes : List Byte) (fb : Screen) : Drawing :=
  drawRows x0 y0 bytes { fb := fb, hit := false }

end Sys2Proof.Machine
end

