-- ==== Sys2Proof/Machine/Control.lean ====
section
/-! DEFINITION. Families 0, 1, 2 and B: clear, return, no-op, jump, call, indexed jump
(spec/40_family_0_1_2.md, 43_family_9_to_D.md R142). -/

namespace Sys2Proof.Machine

/-- R100: every cell off, `redraw = 1`. -/
def execCls (_z : Nibble) (s : State) : Outcome :=
  .next { s with fb := blankScreen }.advanceRedraw

/-- R101: `pc` at the popped address plus 2; StackUnderflow on an empty stack (R183). -/
def execRet (z : Nibble) (s : State) : Outcome :=
  match s.pop with
  | some (ra, t) => .next (t.finish (ra + 2#16) false)
  | none => raise (.stackUnderflow s.pc (encode (.ret z)))

/-- R102: only `pc` advances. -/
def execNop (_nnn : Addr12) (s : State) : Outcome := .next s.advance

/-- R103. -/
def execJp (nnn : Addr12) (s : State) : Outcome := .next (s.finish (zext12 nnn) false)

/-- R104: the address of this CALL is pushed; StackOverflow on a full stack (R182). -/
def execCall (nnn : Addr12) (s : State) : Outcome :=
  match s.push s.pc with
  | some t => .next (t.finish (zext12 nnn) false)
  | none => raise (.stackOverflow s.pc (encode (.call nnn)))

/-- R142: always register 0; the sum is not reduced modulo 4096. -/
def execJpV0 (nnn : Addr12) (s : State) : Outcome :=
  .next (s.finish (indexedTarget (s.reg 0) nnn) false)

end Sys2Proof.Machine
end

