-- ==== Sys2Proof/Machine/Index.lean ====
section
/-! DEFINITION. The index register and what it addresses: LD I, ADD I, LD F, LD B, the register dump and
load, and the sprite (spec/43_family_9_to_D.md R141, R144, 45_family_F.md R164 to R168). -/

namespace Sys2Proof.Machine

/-- R141. -/
def execLdI (nnn : Addr12) (s : State) : Outcome := .next { s with i := zext12 nnn }.advance

/-- R144: all `n` sprite bytes are read and checked first, then drawn; `V[15]` takes the collision flag. -/
def execDrw (x y : Reg) (n : Nibble) (s : State) : Outcome :=
  let d := drawSprite (s.reg x).toNat (s.reg y).toNat (s.bytesFrom s.i.toNat n.toNat) s.fb
  accessing (.drw x y n) s s.i.toNat n.toNat
    ({ s with fb := d.fb }.setReg vf (flagByte d.hit)).advanceRedraw

/-- R164: the flag is the carry out of 16 bits. -/
def execAddI (x : Reg) (s : State) : Outcome :=
  .next ({ s with i := s.i + zext8 (s.reg x) }.setReg vf (flagByte (carryOfIndex s.i (s.reg x)))).advance

/-- R165: not masked to 4 bits. -/
def execLdF (x : Reg) (s : State) : Outcome := .next { s with i := fontAddress (s.reg x) }.advance

/-- R166: three bytes from `I` on; `I` is unchanged. -/
def execLdB (x : Reg) (s : State) : Outcome :=
  accessing (.ldB x) s s.i.toNat 3 (s.storeBytes s.i.toNat (bcdDigits (s.reg x))).advance

/-- R167: `V[0]` to `V[x]` inclusive from `I` on; `I` is unchanged. -/
def execStRegs (x : Reg) (s : State) : Outcome :=
  accessing (.stRegs x) s s.i.toNat (x.val + 1) (s.storeBytes s.i.toNat (s.regsUpTo x)).advance

/-- R168: `V[0]` to `V[x]` inclusive from `I` on; `I` is unchanged. -/
def execLdRegs (x : Reg) (s : State) : Outcome :=
  accessing (.ldRegs x) s s.i.toNat (x.val + 1)
    (s.loadRegs 0 (s.bytesFrom s.i.toNat (x.val + 1))).advance

end Sys2Proof.Machine
end

