-- ==== Sys2Proof/Machine/Skips.lean ====
section
/-! DEFINITION. The conditional skips of families 3, 4, 5, 9 and E (spec/41_family_3_to_7.md R110 to R112,
43_family_9_to_D.md R140, 44_family_E_keys.md). -/

namespace Sys2Proof.Machine

/-- R110. -/
def execSeImm (x : Reg) (nn : Byte) (s : State) : Outcome := .next (s.skipIf (s.reg x == nn))

/-- R111. -/
def execSneImm (x : Reg) (nn : Byte) (s : State) : Outcome := .next (s.skipIf (s.reg x != nn))

/-- R112; the low nibble is not examined (30_encoding.md R90). -/
def execSeReg (x y : Reg) (_z : Nibble) (s : State) : Outcome :=
  .next (s.skipIf (s.reg x == s.reg y))

/-- R140; the low nibble is not examined (30_encoding.md R90). -/
def execSneReg (x y : Reg) (_z : Nibble) (s : State) : Outcome :=
  .next (s.skipIf (s.reg x != s.reg y))

/-- R150: skips when the key is down. -/
def execSkp (x : Reg) (s : State) : Outcome := s.skipOnKey (.skp x) x true

/-- R151: skips when the key is up. -/
def execSknp (x : Reg) (s : State) : Outcome := s.skipOnKey (.sknp x) x false

end Sys2Proof.Machine
end

