-- ==== Sys2Proof/Machine/Timers.lean ====
section
/-! DEFINITION. The timers and the key wait of family F (spec/45_family_F.md R160 to R163). -/

namespace Sys2Proof.Machine

/-- R160. -/
def execLdVxDt (x : Reg) (s : State) : Outcome := .next (s.setReg x s.dt).advance

/-- R161: completes when a press is reported and some key is down, with the lowest such key; else waits
with `pc` on this instruction. -/
def execLdVxK (x : Reg) (s : State) : Outcome :=
  .next (match firstKey s.kb with
    | some k => if s.inputs.keyPressed then (s.setReg x k).advance else s.wait
    | none => s.wait)

/-- R162. -/
def execLdDtVx (x : Reg) (s : State) : Outcome := .next { s with dt := s.reg x }.advance

/-- R163. -/
def execLdStVx (x : Reg) (s : State) : Outcome := .next { s with st := s.reg x }.advance

end Sys2Proof.Machine
end

