-- ==== Sys2Proof/Machine/HostOps.lean ====
section
/-! DEFINITION. The host's operations RESET, LOAD, SET_KEYS and TICK (spec/10_state.md R38). -/

namespace Sys2Proof.Machine

/-- RESET: every piece of state at the value of 10_state.md R40, the loaded program erased (D25). The
parameters are the machine's own; the host's schedule and the count of free draws are not the machine's state
and stay. -/
def State.afterReset (s : State) : State :=
  { State.resetWith s.cfg with schedule := s.schedule, draws := s.draws }

/-- LOAD: `OversizedRom` and no change above 2048 bytes, else the bytes from `ENTRY_ADDR` on and nothing
else (20_memory.md R59). -/
def State.afterLoad (s : State) (bytes : List Byte) : State :=
  if romMax < bytes.length then { s with result := .oversizedRom }
  else { s.storeBytes s.cfg.entryAddr.val bytes with result := .loadOk }

/-- SET_KEYS (10_state.md R39). -/
def State.afterSetKeys (s : State) (keys : Keys) : State :=
  { s with kb := keys, result := .nothing }

/-- One count of a timer toward 0 (10_state.md R31). -/
def countDown (t : Byte) : Byte := if t = 0#8 then 0#8 else t - 1#8

/-- TICK: each nonzero timer is lowered by 1 (10_state.md R31). -/
def State.afterTick (s : State) : State :=
  { s with dt := countDown s.dt, st := countDown s.st, result := .nothing }

end Sys2Proof.Machine
end

