-- ==== Sys2Proof/Machine/Engine.lean ====
section
/-! DEFINITION. The Instruction Engine's STEP: fetch, decode, execute (spec/30_encoding.md R83), and the total
order of the five operations (20_memory.md R61, 10_state.md R38). -/

namespace Sys2Proof.Machine

/-- Fetch: the big-endian word at `pc`, or the first address out of range: `pc` when it is 4096 or more,
4096 when `pc` is 4095 (R83 step 1, 20_memory.md R54, R57). -/
def State.fetch (s : State) : Except Nat Word :=
  match firstOutOfRange s.pc.toNat insnBytes with
  | some a => .error a
  | none => .ok (wordOfBytes (s.byteAt s.pc.toNat) (s.byteAt (s.pc.toNat + 1)))

/-- A word that decodes to no instruction: a reserved nibble of family 8 that `RESERVED_8_NOP` holds is
the no-op of 42_family_8_alu.md R130; every other one raises UnknownInstruction (R83 step 2, R91). -/
def State.undecoded (s : State) (w : Word) (r : Reject) : Outcome :=
  match r with
  | .reservedFamily8 n =>
    if n ∈ s.cfg.reserved8Nop then execReserved8 s else raise (.unknownInstruction s.pc w)
  | .truncated | .undefinedFamilyE _ | .undefinedFamilyF _ => raise (.unknownInstruction s.pc w)

/-- Fetch, decode and execute with the inputs in place (R83). -/
def State.cycle (s : State) : Outcome :=
  match s.fetch with
  | .error a => raise (.memoryOutOfRange s.pc none a)
  | .ok w =>
    match decodeWord w with
    | .ok i => exec i s
    | .error r => s.undecoded w r

/-- STEP with its inputs (R83, 10_state.md R44). -/
def State.engineStep (s : State) (inp : Inputs) : Outcome := { s with inputs := inp }.cycle

/-- The free inputs of a STEP the schedule gives none for (10_state.md R44; assumption log 4). -/
def freeInputs (k : Nat) : Inputs :=
  { keyPressed := Config.freeKeyPressed k, rnd := Config.freeRnd k }

/-- One operation of the block (10_state.md R38). -/
def State.perform (s : State) : HostOp → Outcome
  | .reset => .next s.afterReset
  | .load bytes => .next (s.afterLoad bytes)
  | .setKeys keys => .next (s.afterSetKeys keys)
  | .tick => .next s.afterTick
  | .step keyPressed rnd => s.engineStep { keyPressed := keyPressed, rnd := rnd }

/-- The next operation: the oldest of the schedule, or a STEP with free inputs when the schedule is
empty (70_reset_and_hazards.md R212; assumption log 5). -/
def State.nextOperation (s : State) : Outcome :=
  match s.schedule with
  | [] => { s with draws := s.draws + 1 }.engineStep (freeInputs s.draws)
  | op :: rest => { s with schedule := rest }.perform op

/-- Whether an operation is a STEP. -/
def HostOp.isStep : HostOp → Bool
  | .step _ _ => true
  | .reset | .load _ | .setKeys _ | .tick => false

/-- A word stored where the next STEP fetches it, with the host's operations before that STEP taken off
the schedule, so that the next operation is the STEP (assumption log 9). Where `pc` is 4095 or more there is no
such place and nothing is stored. -/
def State.placeWord (s : State) (w : Word) : State :=
  if s.pc.toNat + 1 < memSize then
    { s.storeBytes s.pc.toNat [w.hi, w.lo] with schedule := s.schedule.dropWhile (fun op => !op.isStep) }
  else s

end Sys2Proof.Machine
end

