-- ==== Sys2Proof/Machine/Step.lean ====
section
/-! DEFINITION. One step of the model is one operation of the block (spec/10_state.md R38). What it does is in
Engine.lean. -/

namespace Sys2Proof.Machine

/-- One operation: the next of the host's schedule, or a STEP. -/
def step (s : State) : Host.Outcome State Fault Refusal := s.nextOperation

/-- `s` with the instruction whose bits are the low `nbits` bits of `w` (numbered as
spec/opcode_table.json numbers them) stored where `step` fetches its next instruction. -/
def State.withFetchWord (s : State) (nbits w : Nat) : State := s.placeWord (tableWord nbits w)

end Sys2Proof.Machine
end

