-- ==== Sys2Proof/Safety.lean ====
section
/-! DEFINITION. The terms claims use: the parts of the state an operation may write, the invariant of every
reachable state (spec/10_state.md R25, R42), the end of a run and a safe run (70_reset_and_hazards.md R211). -/

namespace Sys2Proof.Machine

/-- The parts of the state: one for each row of 10_state.md R20 (`STACK` and `SP` together), and one for
each field of the model's own. -/
inductive Part where
  | regs | index | pc | stack | delay | sound | screen | keys | memory
  | config | inputs | schedule | draws | result
  deriving DecidableEq, Repr

/-- `t` has a part of the state as `s` has it. Registers, screen, keys, stack and memory are compared
through the reads of one register, cell, flag, entry or byte. -/
def State.keeps (s t : State) : Part → Prop
  | .regs => ∀ r, t.reg r = s.reg r
  | .index => t.i = s.i
  | .pc => t.pc = s.pc
  | .stack => t.sp = s.sp ∧ ∀ k, t.stackAt k = s.stackAt k
  | .delay => t.dt = s.dt
  | .sound => t.st = s.st
  | .screen => ∀ r c, t.cell r c = s.cell r c
  | .keys => ∀ k, t.key k = s.key k
  | .memory => ∀ a, t.readByte a = s.readByte a
  | .config => t.cfg = s.cfg
  | .inputs => t.inputs = s.inputs
  | .schedule => t.schedule = s.schedule
  | .draws => t.draws = s.draws
  | .result => t.result = s.result

/-- Only the parts listed may differ between `s` and `t`. -/
def KeepsAllBut (written : List Part) (s t : State) : Prop := ∀ p, p ∉ written → s.keeps t p

/-- What every reachable state satisfies: memory in canonical form (the model's own, assumption log 11), `pc`
at most 0x10FE ("the largest value any instruction can give `pc`", R25), and every return address in use at most 4094
(R42). The widths and `SP` at most 16 of R42 are in the types. -/
abbrev State.Inv (s : State) : Prop :=
  Memory.wf s.cfg.font s.mem ∧ s.pc.toNat ≤ 0x10FE ∧
    ∀ k : Fin 16, k.val < s.sp.val → (s.stackAt k).toNat ≤ 4094

/-- The recommended end of a run: `pc` holds the address of a `JP` to itself (R211; assumption log
13). -/
def State.Ended (s : State) : Prop := s.fetch = .ok (0x1000#16 ||| s.pc)

/-- A run of `n` operations from `s` that no fault ends (60_exceptions.md R191: "the first fault of a run …
a bad end"). -/
def SafeFor (n : Nat) (s : State) : Prop := ∃ t, Host.Core.run core n s = .next t

end Sys2Proof.Machine
end

