-- ==== Sys2Proof/Certificates/Slice0/Obligations.lean ====
section
/-! DEFINITION. The statements for the provers, each from a rule of spec/, and the terms they share. The terms
are written from the rules' own formulas over the natural numbers, not from the model's definitions. -/

namespace Sys2Proof.Claims

open Sys2Proof.Machine

/-! ## Terms -/

/-- The instruction executes: it answers a next state, and `P` holds of that state. -/
def Completes (i : Instr) (s : State) (P : State → Prop) : Prop := ∃ t, exec i s = .next t ∧ P t

/-- The next operation succeeds, and `P` holds of the state it leaves. -/
def Performs (s : State) (P : State → Prop) : Prop := ∃ t, step s = .next t ∧ P t

/-- `s` with `op` as the host's next operation and `rest` after it (the schedule is the model's own: DESIGN
CHOICE, assumption log 5). -/
def scheduled (s : State) (op : HostOp) (rest : List HostOp) : State := { s with schedule := op :: rest }

/-- The state in which a scheduled STEP executes its instruction: the operation is off the schedule and
its inputs are in place (both fields are the model's own: DESIGN CHOICE, assumption log 4, 5). -/
def executing (s : State) (k : Bool) (r : Byte) (rest : List HostOp) : State :=
  { s with schedule := rest, inputs := { keyPressed := k, rnd := r } }

/-- The state in which a STEP with free inputs executes its instruction: the free values of the draw counter
are in place and the counter is one higher (DESIGN CHOICE, assumption log 4, 5). -/
def executingFree (s : State) : State :=
  { s with
    schedule := []
    draws := s.draws + 1
    inputs := { keyPressed := Config.freeKeyPressed s.draws, rnd := Config.freeRnd s.draws } }

/-- The word `w` stands at `pc`: both bytes are in memory, and `w = Mem[pc] * 256 + Mem[pc+1]` (00_scope.md
R9). -/
def WordAtPc (s : State) (w : Word) : Prop :=
  s.pc.toNat + 1 < 4096 ∧
    w.toNat = (s.byteAt s.pc.toNat).toNat * 256 + (s.byteAt (s.pc.toNat + 1)).toNat

/-- `pc` is two further, modulo 65536, and the STEP returns `Ok{redraw=0, waiting=0}` (10_state.md R37; here
and below, the field that holds what an operation returned is the model's own: DESIGN CHOICE, assumption log 6). -/
def Advances (s t : State) : Prop :=
  t.pc.toNat = (s.pc.toNat + 2) % 65536 ∧ t.result = .stepOk false false

/-- `pc` is four further when `c` holds, else two, and the STEP returns `Ok{redraw=0, waiting=0}`. -/
def SkipsWhen (c : Prop) (s t : State) : Prop :=
  (c → t.pc.toNat = (s.pc.toNat + 4) % 65536) ∧ (¬ c → t.pc.toNat = (s.pc.toNat + 2) % 65536) ∧
    t.result = .stepOk false false

/-- Only `pc` and the outputs of the STEP may differ: the frame of the skips, of NOP and of the jumps. -/
def OnlyPcMoves (s t : State) : Prop := KeepsAllBut [.pc, .result] s t

/-- A register instruction without a flag: `V[d]` holds `b`, every other register and everything but `pc`
and the outputs is as before. -/
def WritesReg (s t : State) (d : Reg) (b : Byte) : Prop :=
  t.reg d = b ∧ (∀ r, r ≠ d → t.reg r = s.reg r) ∧ Advances s t ∧
    KeepsAllBut [.regs, .pc, .result] s t

/-- A register instruction with a flag: `V[d]` is `result`; `V[15]`, when it is not `V[d]`, is 1 or 0 as
`flag` says (10_state.md R23: the result stands when both are `V[15]`); nothing else but `pc` and the outputs
changes. -/
def WritesRegAndFlag (s t : State) (d : Reg) (result : Nat) (flag : Prop) : Prop :=
  (t.reg d).toNat = result ∧ (d ≠ 15 → (flag → t.reg 15 = 1) ∧ (¬ flag → t.reg 15 = 0)) ∧
    (∀ r, r ≠ d → r ≠ 15 → t.reg r = s.reg r) ∧ Advances s t ∧
    KeepsAllBut [.regs, .pc, .result] s t

/-- The pixel that DRW draws at a row and a column: inside the sprite's 8 columns and `n` rows, the bit of
the byte at `I + (row - V[y])` counted from bit 7 at the left edge (43_family_9_to_D.md R144). -/
def SpritePixel (s : State) (x y : Reg) (n : Nibble) (r : Fin 32) (c : Fin 64) : Bool :=
  let x0 := (s.reg x).toNat
  let y0 := (s.reg y).toNat
  decide (y0 ≤ r.val ∧ r.val < y0 + n.toNat ∧ x0 ≤ c.val ∧ c.val < x0 + 8) &&
    (s.byteAt (s.i.toNat + (r.val - y0))).getLsbD (7 - (c.val - x0))

/-- The values of 10_state.md R40 and 20_memory.md R52 for a machine with the parameters `cfg`. -/
def HasResetValues (cfg : Config) (t : State) : Prop :=
  (∀ r, t.reg r = 0) ∧ t.i = 0 ∧ t.pc.toNat = cfg.entryAddr.val ∧ t.sp.val = 0 ∧
    (∀ k, t.stackAt k = 0) ∧ t.dt = 0 ∧ t.st = 0 ∧ (∀ r c, t.cell r c = false) ∧
    (∀ k, t.key k = false) ∧
    (∀ a : Nat, t.readByte a =
      if a < 80 then cfg.font[a]? else if a < 4096 then some 0 else none)

/-- A row of the opcode map: mask, match, identifier (30_encoding.md R84). -/
abbrev Row := Word × Word × String

/-- The 35 rows of 30_encoding.md R84, in its order. -/
def opcodeMap : List Row :=
  [(0xF0FF, 0x00E0, "CLS"), (0xF0FF, 0x00EE, "RET"), (0xF000, 0x0000, "NOP"),
   (0xF000, 0x1000, "JP"), (0xF000, 0x2000, "CALL"), (0xF000, 0x3000, "SE_IMM"),
   (0xF000, 0x4000, "SNE_IMM"), (0xF000, 0x5000, "SE_REG"), (0xF000, 0x6000, "LD_IMM"),
   (0xF000, 0x7000, "ADD_IMM"), (0xF00F, 0x8000, "MOV"), (0xF00F, 0x8001, "OR")] ++
  [(0xF00F, 0x8002, "AND"), (0xF00F, 0x8003, "XOR"), (0xF00F, 0x8004, "ADD"),
   (0xF00F, 0x8005, "SUB"), (0xF00F, 0x8006, "SHR"), (0xF00F, 0x8007, "SUBN"),
   (0xF00F, 0x800E, "SHL"), (0xF000, 0x9000, "SNE_REG"), (0xF000, 0xA000, "LD_I"),
   (0xF000, 0xB000, "JP_V0"), (0xF000, 0xC000, "RND"), (0xF000, 0xD000, "DRW")] ++
  [(0xF0FF, 0xE09E, "SKP"), (0xF0FF, 0xE0A1, "SKNP"), (0xF0FF, 0xF007, "LD_VX_DT"),
   (0xF0FF, 0xF00A, "LD_VX_K"), (0xF0FF, 0xF015, "LD_DT_VX"), (0xF0FF, 0xF018, "LD_ST_VX"),
   (0xF0FF, 0xF01E, "ADD_I"), (0xF0FF, 0xF029, "LD_F"), (0xF0FF, 0xF033, "LD_B"),
   (0xF0FF, 0xF055, "ST_REGS"), (0xF0FF, 0xF065, "LD_REGS")]

/-- The words of 30_encoding.md R91 (a) for a machine with the parameters `cfg`. -/
def IllegalWord (cfg : Config) (w : Word) : Prop :=
  (w.toNat / 4096 = 0xE ∧ w.toNat % 256 ∉ [0x9E, 0xA1]) ∨
  (w.toNat / 4096 = 0xF ∧
    w.toNat % 256 ∉ [0x07, 0x0A, 0x15, 0x18, 0x1E, 0x29, 0x33, 0x55, 0x65]) ∨
  (w.toNat / 4096 = 0x8 ∧ w.toNat % 16 ∈ [0x8, 0x9, 0xA, 0xB, 0xC, 0xD, 0xF] ∧
    BitVec.ofNat 4 (w.toNat % 16) ∉ cfg.reserved8Nop)

/-- How many bytes of memory, from `I` on, an instruction touches (20_memory.md R55). -/
def bytesTouched : Instr → Nat
  | .drw _ _ n => n.toNat
  | .ldB _ => 3
  | .stRegs x => x.val + 1
  | .ldRegs x => x.val + 1
  | _ => 0

/-- The fault an instruction raises at execute, if any (60_exceptions.md R182, R183, R185 (b) to (d),
R186, R188). -/
def executeFault (i : Instr) (s : State) : Option Fault :=
  match i with
  | .call _ => if s.sp.val = 16 then some (.stackOverflow s.pc (encode i)) else none
  | .ret _ => if s.sp.val = 0 then some (.stackUnderflow s.pc (encode i)) else none
  | .skp x | .sknp x =>
    if 15 < (s.reg x).toNat then some (.keyIndexOutOfRange s.pc (encode i) (s.reg x).toNat) else none
  | .drw _ _ _ | .ldB _ | .stRegs _ | .ldRegs _ =>
    if 1 ≤ bytesTouched i ∧ 4096 ≤ s.i.toNat + bytesTouched i - 1 then
      some (.memoryOutOfRange s.pc (some (encode i)) (max s.i.toNat 4096))
    else none
  | _ => none

/-- Where `pc` goes when an instruction completes (10_state.md R26), as a number modulo 65536. -/
def pcAfter (i : Instr) (s : State) : Nat :=
  let skip := fun c : Bool => (s.pc.toNat + if c then 4 else 2) % 65536
  let keyDown := fun x : Reg => s.key (Fin.ofNat 16 (s.reg x).toNat)
  match i with
  | .jp nnn | .call nnn => nnn.toNat
  | .jpV0 nnn => (s.reg 0).toNat + nnn.toNat
  | .ret _ => ((s.stackAt (Fin.ofNat 16 (s.sp.val - 1))).toNat + 2) % 65536
  | .seImm x nn => skip (s.reg x = nn)
  | .sneImm x nn => skip (s.reg x ≠ nn)
  | .seReg x y _ => skip (s.reg x = s.reg y)
  | .sneReg x y _ => skip (s.reg x ≠ s.reg y)
  | .skp x => skip (keyDown x)
  | .sknp x => skip (!keyDown x)
  | .ldVxK _ =>
    if s.inputs.keyPressed = true ∧ ∃ k, s.key k = true then (s.pc.toNat + 2) % 65536 else s.pc.toNat
  | _ => (s.pc.toNat + 2) % 65536

/-- The parts of the state an instruction may write, from the column "written by" of 10_state.md R20,
beside `pc` and the outputs of the STEP. -/
def writtenBy : Instr → List Part
  | .cls _ => [.screen]
  | .ret _ | .call _ => [.stack]
  | .nop _ | .jp _ | .jpV0 _ | .seImm _ _ | .sneImm _ _ | .seReg _ _ _ | .sneReg _ _ _ | .skp _
  | .sknp _ => []
  | .ldImm _ _ | .addImm _ _ | .mov _ _ | .or _ _ | .and _ _ | .xor _ _ | .add _ _ | .sub _ _
  | .shr _ _ | .subn _ _ | .shl _ _ | .rnd _ _ | .ldVxDt _ | .ldVxK _ | .ldRegs _ => [.regs]
  | .ldI _ | .ldF _ => [.index]
  | .addI _ => [.index, .regs]
  | .drw _ _ _ => [.screen, .regs]
  | .ldDtVx _ => [.delay]
  | .ldStVx _ => [.sound]
  | .ldB _ | .stRegs _ => [.memory]

/-- The seven instructions that write `V[15]` as a flag (10_state.md R22). -/
def WritesFlag : Instr → Prop
  | .add _ _ | .sub _ _ | .shr _ _ | .subn _ _ | .shl _ _ | .drw _ _ _ | .addI _ => True
  | _ => False

/-- `V[r]` is an ordinary destination of the instruction (10_state.md R21: `V[x]`, `V[y]` for 8xy7,
`V[0..x]` for Fx65). -/
def IsDestination (r : Reg) : Instr → Prop
  | .ldImm x _ | .addImm x _ | .mov x _ | .or x _ | .and x _ | .xor x _ | .add x _ | .sub x _
  | .shr x _ | .shl x _ | .rnd x _ | .ldVxDt x | .ldVxK x => r = x
  | .subn _ y => r = y
  | .ldRegs x => r ≤ x
  | _ => False

/-- What an instruction that completes returns: `redraw` for CLS and DRW, `waiting` for an Fx0A that does
not complete (10_state.md R37). -/
def outputsOf (i : Instr) (s : State) : OpResult :=
  match i with
  | .cls _ | .drw _ _ _ => .stepOk true false
  | .ldVxK _ =>
    .stepOk false (decide (¬ (s.inputs.keyPressed = true ∧ ∃ k, s.key k = true)))
  | _ => .stepOk false false

/-- An outcome with every next state changed by `f`. -/
def mapNext (f : State → State) : Outcome → Outcome
  | .next t => .next (f t)
  | .fault r => .fault r
  | .refused r => .refused r

end Sys2Proof.Claims

open Sys2Proof Sys2Proof.Machine Sys2Proof.Claims

/-! ## Reset and the host's operations -/

/-- 10_state.md R40: the value of every piece of state after RESET, for every value of the parameters; the
reset state of the model is that of the default parameters, with `pc` at 0x200. -/
def Obligations.ResetStateHoldsResetValues : Prop :=
  (∀ cfg, HasResetValues cfg (State.resetWith cfg)) ∧ HasResetValues Config.default State.reset ∧
    State.reset.pc = 0x200

/-- 10_state.md R40 for the operation RESET performed in any state: the same values, the loaded program
gone. The parameters stay (they are the machine's). That the rest of the schedule and the count of free draws stay,
and that a field holds the result, is the model's choice (DESIGN CHOICE, assumption log 4, 5, 6). -/
def Obligations.ResetOperationRestoresResetValues : Prop :=
  ∀ (s : State) (rest : List HostOp), Performs (scheduled s .reset rest) fun t =>
    HasResetValues s.cfg t ∧ t.cfg = s.cfg ∧ t.result = .nothing ∧ t.schedule = rest ∧
      t.draws = s.draws

/-- 10_state.md R31: TICK lowers each nonzero timer by 1, leaves a timer at 0 at 0, and changes nothing
else of the machine. The schedule it is taken from and the field of the result are the model's own (DESIGN CHOICE,
assumption log 5, 6). -/
def Obligations.TickCountsBothTimersDown : Prop :=
  ∀ (s : State) (rest : List HostOp), Performs (scheduled s .tick rest) fun t =>
    (0 < s.dt.toNat → t.dt.toNat = s.dt.toNat - 1) ∧ (s.dt.toNat = 0 → t.dt.toNat = 0) ∧
    (0 < s.st.toNat → t.st.toNat = s.st.toNat - 1) ∧ (s.st.toNat = 0 → t.st.toNat = 0) ∧
    t.result = .nothing ∧ t.schedule = rest ∧
    KeepsAllBut [.delay, .sound, .schedule, .result] s t

/-- 10_state.md R39: SET_KEYS writes all sixteen flags and nothing else of the machine. The schedule it is
taken from and the field of the result are the model's own (DESIGN CHOICE, assumption log 5, 6). -/
def Obligations.SetKeysOverwritesSnapshot : Prop :=
  ∀ (s : State) (keys : Keys) (rest : List HostOp), Performs (scheduled s (.setKeys keys) rest) fun t =>
    (∀ k : Fin 16, t.key k = keys[k]) ∧ t.result = .nothing ∧ t.schedule = rest ∧
      KeepsAllBut [.keys, .schedule, .result] s t

/-- 20_memory.md R59: an image of at most 2048 bytes goes to `ENTRY_ADDR` and nothing else of the machine
changes; a longer one is OversizedRom with no change of the machine's state. The schedule, the field of the result,
and the canonical form that the premise on memory speaks of (every reachable state's memory has it) are the model's
own (DESIGN CHOICE, assumption log 5, 6, 11). -/
def Obligations.LoadCopiesImageOrReportsOversized : Prop :=
  ∀ (s : State) (bytes : List Byte) (rest : List HostOp), Memory.wf s.cfg.font s.mem →
    (bytes.length ≤ 2048 → Performs (scheduled s (.load bytes) rest) fun t =>
      (∀ a : Nat, t.readByte a =
        if s.cfg.entryAddr.val ≤ a ∧ a < s.cfg.entryAddr.val + bytes.length then
          bytes[a - s.cfg.entryAddr.val]?
        else s.readByte a) ∧
      t.result = .loadOk ∧ t.schedule = rest ∧ KeepsAllBut [.memory, .schedule, .result] s t) ∧
    (2048 < bytes.length → Performs (scheduled s (.load bytes) rest) fun t =>
      t.result = .oversizedRom ∧ t.schedule = rest ∧ KeepsAllBut [.schedule, .result] s t)

/-! ## Decoding -/

/-- 30_encoding.md R84: words written out from the map decode to the instructions they stand for. -/
def Obligations.SampleWordsDecode : Prop :=
  decodeTableWord 16 0x00EE = some (.ret 0) ∧ decodeTableWord 16 0x332A = some (.seImm 3 0x2A) ∧
  decodeTableWord 16 0x8127 = some (.subn 1 2) ∧ decodeTableWord 16 0xB300 = some (.jpV0 0x300) ∧
  decodeTableWord 16 0xD01F = some (.drw 0 1 15) ∧ decodeTableWord 16 0xE4A1 = some (.sknp 4) ∧
  decodeTableWord 16 0xF265 = some (.ldRegs 2) ∧ decodeTableWord 16 0x8128 = none

/-- 30_encoding.md R81, R84: the decoder reads back every well-formed instruction, with every operand at
every value its field admits. -/
def Obligations.DecodeOfEncodeIsIdentity : Prop :=
  ∀ (i : Instr) (rest : List Byte), i.wellFormed = true →
    decodeWord (encode i) = .ok i ∧ decode (encodeBytes i ++ rest) = .ok (i, rest)

/-- A word that decodes decodes to a well-formed instruction whose encoding is that very word. For a word
without ignored bits this follows from 30_encoding.md R84. For one with ignored bits (0AE0, 5AB7, 8126: R86, R90, R91
(c), 40_family_0_1_2.md R102), which the spec makes one instruction with its canonical word, it is the model's own
choice, not the spec's: the term keeps those bits (DESIGN CHOICE, assumption log 7). -/
def Obligations.EncodeOfDecodeIsIdentity : Prop :=
  ∀ (w : Word) (i : Instr), decodeWord w = .ok i → i.wellFormed = true ∧ encode i = w

/-- 30_encoding.md R94: the decoder is the search of the opcode map for the first row with `w & mask =
match`, and finds no row exactly where it rejects. -/
def Obligations.DecoderFollowsOpcodeMap : Prop :=
  ∀ w : Word,
    (match decodeWord w with
      | .ok i => some i.mnemonic
      | .error _ => none) = (opcodeMap.find? fun row => w &&& row.1 == row.2.1).map fun row => row.2.2

/-! ## STEP -/

/-- 30_encoding.md R83: when the two bytes at `pc` decode to `i`, a STEP is the execution of `i`, with its
inputs in place and the operation off the schedule; `pc` is not advanced between fetch and execute. The schedule, and
the whole second clause (with an empty schedule a step is a STEP with the opaque free inputs of the draw counter,
which goes one higher), are the model's choice and not R83's (DESIGN CHOICE, assumption log 4, 5). -/
def Obligations.StepRunsDecodedInstruction : Prop :=
  ∀ (s : State) (i : Instr), s.pc.toNat + 1 < 4096 →
    decode [s.byteAt s.pc.toNat, s.byteAt (s.pc.toNat + 1)] = .ok (i, []) →
    (∀ (k : Bool) (r : Byte) (rest : List HostOp),
      step (scheduled s (.step k r) rest) = exec i (executing s k r rest)) ∧
    step { s with schedule := [] } = exec i (executingFree s)

/-- 30_encoding.md R83 step 1, 60_exceptions.md R185 (a): a STEP with `pc` at 4095 or more faults at fetch,
and reports the first address out of range. -/
def Obligations.FetchOutOfRangeFaults : Prop :=
  ∀ (s : State) (k : Bool) (r : Byte) (rest : List HostOp), 4095 ≤ s.pc.toNat →
    step (scheduled s (.step k r) rest) =
      .fault (.memoryOutOfRange s.pc none (if 4096 ≤ s.pc.toNat then s.pc.toNat else 4096))

/-- 60_exceptions.md R184: a STEP raises UnknownInstruction, with the word and `pc`, exactly for the words
of 30_encoding.md R91 (a). -/
def Obligations.UnknownInstructionExactlyIllegalWords : Prop :=
  ∀ (s : State) (k : Bool) (r : Byte) (rest : List HostOp) (w : Word), WordAtPc s w →
    (step (scheduled s (.step k r) rest) = .fault (.unknownInstruction s.pc w) ↔
      IllegalWord s.cfg w)

/-- 42_family_8_alu.md R130: a reserved nibble of family 8 is a no-op where `RESERVED_8_NOP` holds it, else
an unknown instruction; with the default set, always the latter. -/
def Obligations.ReservedFamilyEightNibbles : Prop :=
  (∀ (s : State) (k : Bool) (r : Byte) (rest : List HostOp) (w : Word), WordAtPc s w →
    w.toNat / 4096 = 8 → w.toNat % 16 ∈ [0x8, 0x9, 0xA, 0xB, 0xC, 0xD, 0xF] →
    (BitVec.ofNat 4 (w.toNat % 16) ∈ s.cfg.reserved8Nop →
      Performs (scheduled s (.step k r) rest) fun t =>
        Advances s t ∧ KeepsAllBut [.pc, .result] (executing s k r rest) t) ∧
    (BitVec.ofNat 4 (w.toNat % 16) ∉ s.cfg.reserved8Nop →
      step (scheduled s (.step k r) rest) = .fault (.unknownInstruction s.pc w))) ∧
  Config.default.reserved8Nop = []

/-! ## Families 0, 1, 2 and B -/

/-- 40_family_0_1_2.md R100. -/
def Obligations.ClsBlanksScreen : Prop :=
  ∀ (z : Nibble) (s : State), Completes (.cls z) s fun t =>
    (∀ r c, t.cell r c = false) ∧ t.pc.toNat = (s.pc.toNat + 2) % 65536 ∧
      t.result = .stepOk true false ∧ KeepsAllBut [.screen, .pc, .result] s t

/-- 40_family_0_1_2.md R101. -/
def Obligations.RetPopsReturnAddress : Prop :=
  ∀ (z : Nibble) (s : State),
    (s.sp.val = 0 → exec (.ret z) s = .fault (.stackUnderflow s.pc (encode (.ret z)))) ∧
    (∀ k : Fin 16, s.sp.val = k.val + 1 → Completes (.ret z) s fun t =>
      t.sp.val = k.val ∧ t.pc.toNat = ((s.stackAt k).toNat + 2) % 65536 ∧
        (∀ j, t.stackAt j = s.stackAt j) ∧ t.result = .stepOk false false ∧
        KeepsAllBut [.stack, .pc, .result] s t)

/-- 40_family_0_1_2.md R102, R103 and 43_family_9_to_D.md R142. -/
def Obligations.NopAndJumpsMoveOnlyPc : Prop :=
  ∀ (nnn : Addr12) (s : State),
    (Completes (.nop nnn) s fun t => Advances s t ∧ OnlyPcMoves s t) ∧
    (Completes (.jp nnn) s fun t =>
      t.pc.toNat = nnn.toNat ∧ t.result = .stepOk false false ∧ OnlyPcMoves s t) ∧
    (Completes (.jpV0 nnn) s fun t =>
      t.pc.toNat = (s.reg 0).toNat + nnn.toNat ∧ t.result = .stepOk false false ∧ OnlyPcMoves s t)

/-- 40_family_0_1_2.md R104. -/
def Obligations.CallPushesOwnAddress : Prop :=
  ∀ (nnn : Addr12) (s : State),
    (s.sp.val = 16 → exec (.call nnn) s = .fault (.stackOverflow s.pc (encode (.call nnn)))) ∧
    (∀ k : Fin 16, s.sp.val = k.val → Completes (.call nnn) s fun t =>
      t.sp.val = k.val + 1 ∧ t.stackAt k = s.pc ∧ (∀ j, j ≠ k → t.stackAt j = s.stackAt j) ∧
        t.pc.toNat = nnn.toNat ∧ t.result = .stepOk false false ∧
        KeepsAllBut [.stack, .pc, .result] s t)

/-- 95_test_vectors.md S3 from R101 and R104: a CALL and the RET that follows it restore `pc` to the
address after the CALL and leave the depth and every entry in use as they were. -/
def Obligations.CallThenRetRoundTrip : Prop :=
  ∀ (nnn : Addr12) (z : Nibble) (s : State), s.sp.val < 16 → Completes (.call nnn) s fun t =>
    Completes (.ret z) t fun u =>
      u.pc.toNat = (s.pc.toNat + 2) % 65536 ∧ u.sp = s.sp ∧
        (∀ k : Fin 16, k.val < s.sp.val → u.stackAt k = s.stackAt k) ∧
        KeepsAllBut [.stack, .pc, .result] s u

/-! ## Skips -/

/-- 41_family_3_to_7.md R110, R111. -/
def Obligations.SkipsOnImmediate : Prop :=
  ∀ (x : Reg) (nn : Byte) (s : State),
    (Completes (.seImm x nn) s fun t => SkipsWhen (s.reg x = nn) s t ∧ OnlyPcMoves s t) ∧
    (Completes (.sneImm x nn) s fun t => SkipsWhen (s.reg x ≠ nn) s t ∧ OnlyPcMoves s t)

/-- 41_family_3_to_7.md R112, 43_family_9_to_D.md R140, for every low nibble. -/
def Obligations.SkipsOnRegister : Prop :=
  ∀ (x y : Reg) (z : Nibble) (s : State),
    (Completes (.seReg x y z) s fun t => SkipsWhen (s.reg x = s.reg y) s t ∧ OnlyPcMoves s t) ∧
    (Completes (.sneReg x y z) s fun t => SkipsWhen (s.reg x ≠ s.reg y) s t ∧ OnlyPcMoves s t)

/-- 44_family_E_keys.md R150, R151. -/
def Obligations.SkipsOnKey : Prop :=
  ∀ (x : Reg) (s : State),
    (∀ k : Fin 16, (s.reg x).toNat = k.val →
      (Completes (.skp x) s fun t => SkipsWhen (s.key k = true) s t ∧ OnlyPcMoves s t) ∧
      (Completes (.sknp x) s fun t => SkipsWhen (s.key k = false) s t ∧ OnlyPcMoves s t)) ∧
    (15 < (s.reg x).toNat →
      exec (.skp x) s = .fault (.keyIndexOutOfRange s.pc (encode (.skp x)) (s.reg x).toNat) ∧
      exec (.sknp x) s = .fault (.keyIndexOutOfRange s.pc (encode (.sknp x)) (s.reg x).toNat))

/-! ## Registers and the ALU -/

/-- 41_family_3_to_7.md R113, R114: the sum wraps and no flag is written. -/
def Obligations.LoadAndAddImmediate : Prop :=
  ∀ (x : Reg) (nn : Byte) (s : State),
    (Completes (.ldImm x nn) s fun t => WritesReg s t x nn) ∧
    (Completes (.addImm x nn) s fun t =>
      WritesReg s t x (BitVec.ofNat 8 (((s.reg x).toNat + nn.toNat) % 256)))

/-- 42_family_8_alu.md R120 to R123: no flag is written. -/
def Obligations.MoveAndLogic : Prop :=
  ∀ (x y : Reg) (s : State),
    (Completes (.mov x y) s fun t => WritesReg s t x (s.reg y)) ∧
    (Completes (.or x y) s fun t => WritesReg s t x (s.reg x ||| s.reg y)) ∧
    (Completes (.and x y) s fun t => WritesReg s t x (s.reg x &&& s.reg y)) ∧
    (Completes (.xor x y) s fun t => WritesReg s t x (s.reg x ^^^ s.reg y))

/-- 42_family_8_alu.md R124. -/
def Obligations.AddSetsCarry : Prop :=
  ∀ (x y : Reg) (s : State), Completes (.add x y) s fun t =>
    WritesRegAndFlag s t x (((s.reg x).toNat + (s.reg y).toNat) % 256)
      (255 < (s.reg x).toNat + (s.reg y).toNat)

/-- 42_family_8_alu.md R125, R127: 8xy5 subtracts into `V[x]`, 8xy7 into `V[y]`; both flags are strict. -/
def Obligations.SubtractionsSetStrictFlag : Prop :=
  ∀ (x y : Reg) (s : State),
    (Completes (.sub x y) s fun t =>
      WritesRegAndFlag s t x (((s.reg x).toNat + 256 - (s.reg y).toNat) % 256)
        ((s.reg y).toNat < (s.reg x).toNat)) ∧
    (Completes (.subn x y) s fun t =>
      WritesRegAndFlag s t y (((s.reg y).toNat + 256 - (s.reg x).toNat) % 256)
        ((s.reg x).toNat < (s.reg y).toNat))

/-- 42_family_8_alu.md R126, R128: the shift source is `V[x]` whatever `y` is. -/
def Obligations.ShiftsSetBitShiftedOut : Prop :=
  ∀ (x y : Reg) (s : State),
    (Completes (.shr x y) s fun t =>
      WritesRegAndFlag s t x ((s.reg x).toNat / 2) ((s.reg x).toNat % 2 = 1)) ∧
    (Completes (.shl x y) s fun t =>
      WritesRegAndFlag s t x ((s.reg x).toNat * 2 % 256) ((s.reg x).toNat / 128 = 1))

/-- 43_family_9_to_D.md R143, for every value of the input `rnd`. -/
def Obligations.RndMasksInputByte : Prop :=
  ∀ (x : Reg) (nn r : Byte) (s : State), s.inputs.rnd = r →
    Completes (.rnd x nn) s fun t => WritesReg s t x (nn &&& r)

/-- 10_state.md R23: with `V[15]` named by the result, the result stands and the flag is lost; with it
named by a source, the old value is the operand. -/
def Obligations.FlagRegisterAsOperand : Prop :=
  ∀ (x : Reg) (s : State),
    (Completes (.add 15 x) s fun t => (t.reg 15).toNat = ((s.reg 15).toNat + (s.reg x).toNat) % 256) ∧
    (Completes (.subn x 15) s fun t =>
      (t.reg 15).toNat = ((s.reg 15).toNat + 256 - (s.reg x).toNat) % 256) ∧
    (x ≠ 15 → Completes (.subn 15 x) s fun t =>
      (t.reg x).toNat = ((s.reg x).toNat + 256 - (s.reg 15).toNat) % 256 ∧
        (t.reg 15).toNat = if (s.reg 15).toNat < (s.reg x).toNat then 1 else 0) ∧
    (Completes (.addI 15) s fun t =>
      t.i.toNat = (s.i.toNat + (s.reg 15).toNat) % 65536 ∧
        (t.reg 15).toNat = if 65535 < s.i.toNat + (s.reg 15).toNat then 1 else 0)

/-! ## The index register -/

/-- 43_family_9_to_D.md R141, 45_family_F.md R165. -/
def Obligations.SetIndexAndFontAddress : Prop :=
  (∀ (nnn : Addr12) (s : State), Completes (.ldI nnn) s fun t =>
    t.i.toNat = nnn.toNat ∧ Advances s t ∧ KeepsAllBut [.index, .pc, .result] s t) ∧
  (∀ (x : Reg) (s : State), Completes (.ldF x) s fun t =>
    t.i.toNat = (s.reg x).toNat * 5 ∧ Advances s t ∧ KeepsAllBut [.index, .pc, .result] s t)

/-- 45_family_F.md R164: the flag is the carry out of 16 bits. -/
def Obligations.AddIndexSetsSixteenBitCarry : Prop :=
  ∀ (x : Reg) (s : State), Completes (.addI x) s fun t =>
    t.i.toNat = (s.i.toNat + (s.reg x).toNat) % 65536 ∧
      (t.reg 15).toNat = (if 65535 < s.i.toNat + (s.reg x).toNat then 1 else 0) ∧
      (∀ r, r ≠ 15 → t.reg r = s.reg r) ∧ Advances s t ∧
      KeepsAllBut [.index, .regs, .pc, .result] s t

/-! ## The sprite -/

/-- 43_family_9_to_D.md R144: every cell of the grid is XORed with the sprite's pixel there, pixels
outside the grid are dropped, `V[15]` says whether a lit cell met a lit pixel, and nothing else changes; an address
out of range faults. -/
def Obligations.DrawXorsClippedSprite : Prop :=
  ∀ (x y : Reg) (n : Nibble) (s : State),
    (n.toNat = 0 ∨ s.i.toNat + n.toNat - 1 < 4096 → Completes (.drw x y n) s fun t =>
      (∀ r c, t.cell r c = (s.cell r c ^^ SpritePixel s x y n r c)) ∧
      ((∃ r c, SpritePixel s x y n r c = true ∧ s.cell r c = true) → t.reg 15 = 1) ∧
      ((¬ ∃ r c, SpritePixel s x y n r c = true ∧ s.cell r c = true) → t.reg 15 = 0) ∧
      (∀ r, r ≠ 15 → t.reg r = s.reg r) ∧ t.pc.toNat = (s.pc.toNat + 2) % 65536 ∧
      t.result = .stepOk true false ∧ KeepsAllBut [.screen, .regs, .pc, .result] s t) ∧
    (1 ≤ n.toNat → 4096 ≤ s.i.toNat + n.toNat - 1 →
      exec (.drw x y n) s =
        .fault (.memoryOutOfRange s.pc (some (encode (.drw x y n))) (max s.i.toNat 4096)))

/-- 95_test_vectors.md S6 from R144: drawing a sprite twice restores every cell, and the second collision
flag says whether the first drawing set a pixel, where neither coordinate register is `V[15]`. -/
def Obligations.DrawTwiceRestoresScreen : Prop :=
  ∀ (x y : Reg) (n : Nibble) (s : State), x ≠ 15 → y ≠ 15 →
    (n.toNat = 0 ∨ s.i.toNat + n.toNat - 1 < 4096) → Completes (.drw x y n) s fun t =>
      Completes (.drw x y n) t fun u =>
        (∀ r c, u.cell r c = s.cell r c) ∧
        ((∃ r c, s.cell r c = false ∧ t.cell r c = true) ↔ u.reg 15 = 1) ∧
        ((¬ ∃ r c, s.cell r c = false ∧ t.cell r c = true) ↔ u.reg 15 = 0)

/-! ## Timers and keys -/

/-- 45_family_F.md R160, R162, R163. -/
def Obligations.TimerMoves : Prop :=
  ∀ (x : Reg) (s : State),
    (Completes (.ldVxDt x) s fun t => WritesReg s t x s.dt) ∧
    (Completes (.ldDtVx x) s fun t =>
      t.dt = s.reg x ∧ Advances s t ∧ KeepsAllBut [.delay, .pc, .result] s t) ∧
    (Completes (.ldStVx x) s fun t =>
      t.st = s.reg x ∧ Advances s t ∧ KeepsAllBut [.sound, .pc, .result] s t)

/-- 45_family_F.md R161: the lowest key that is down, when a press is reported; else the STEP waits and
changes nothing but its own output. -/
def Obligations.KeyWaitDeliversLowestKeyOrWaits : Prop :=
  ∀ (x : Reg) (s : State),
    (s.inputs.keyPressed = true → ∀ k : Fin 16, s.key k = true →
      (∀ j : Fin 16, j < k → s.key j = false) →
      Completes (.ldVxK x) s fun t => WritesReg s t x (BitVec.ofNat 8 k.val)) ∧
    (s.inputs.keyPressed = false ∨ (∀ k, s.key k = false) →
      Completes (.ldVxK x) s fun t => t.result = .stepOk false true ∧ KeepsAllBut [.result] s t)

/-! ## Memory -/

/-- 45_family_F.md R166. The premise on memory is about the model's own representation (DESIGN CHOICE,
assumption log 11). -/
def Obligations.BcdStoresThreeDigits : Prop :=
  ∀ (x : Reg) (s : State), Memory.wf s.cfg.font s.mem →
    (s.i.toNat + 2 < 4096 → Completes (.ldB x) s fun t =>
      t.readByte s.i.toNat = some (BitVec.ofNat 8 ((s.reg x).toNat / 100)) ∧
      t.readByte (s.i.toNat + 1) = some (BitVec.ofNat 8 ((s.reg x).toNat / 10 % 10)) ∧
      t.readByte (s.i.toNat + 2) = some (BitVec.ofNat 8 ((s.reg x).toNat % 10)) ∧
      (∀ a, a < s.i.toNat ∨ s.i.toNat + 2 < a → t.readByte a = s.readByte a) ∧
      Advances s t ∧ KeepsAllBut [.memory, .pc, .result] s t) ∧
    (4096 ≤ s.i.toNat + 2 →
      exec (.ldB x) s =
        .fault (.memoryOutOfRange s.pc (some (encode (.ldB x))) (max s.i.toNat 4096)))

/-- 45_family_F.md R167. The premise on memory is about the model's own representation (DESIGN CHOICE,
assumption log 11). -/
def Obligations.RegisterDumpStoresInclusive : Prop :=
  ∀ (x : Reg) (s : State), Memory.wf s.cfg.font s.mem →
    (s.i.toNat + x.val < 4096 → Completes (.stRegs x) s fun t =>
      (∀ r : Reg, r ≤ x → t.readByte (s.i.toNat + r.val) = some (s.reg r)) ∧
      (∀ a, a < s.i.toNat ∨ s.i.toNat + x.val < a → t.readByte a = s.readByte a) ∧
      Advances s t ∧ KeepsAllBut [.memory, .pc, .result] s t) ∧
    (4096 ≤ s.i.toNat + x.val →
      exec (.stRegs x) s =
        .fault (.memoryOutOfRange s.pc (some (encode (.stRegs x))) (max s.i.toNat 4096)))

/-- 45_family_F.md R168. -/
def Obligations.RegisterLoadReadsInclusive : Prop :=
  ∀ (x : Reg) (s : State),
    (s.i.toNat + x.val < 4096 → Completes (.ldRegs x) s fun t =>
      (∀ r : Reg, r ≤ x → s.readByte (s.i.toNat + r.val) = some (t.reg r)) ∧
      (∀ r : Reg, x < r → t.reg r = s.reg r) ∧
      Advances s t ∧ KeepsAllBut [.regs, .pc, .result] s t) ∧
    (4096 ≤ s.i.toNat + x.val →
      exec (.ldRegs x) s =
        .fault (.memoryOutOfRange s.pc (some (encode (.ldRegs x))) (max s.i.toNat 4096)))

/-- From R167 and R168: registers dumped and loaded again with the same `I` are what they were, whatever
the other registers' fate between. The premise on memory is about the model's own representation (DESIGN CHOICE,
assumption log 11). -/
def Obligations.DumpThenLoadRestoresRegisters : Prop :=
  ∀ (x : Reg) (s : State) (v : Vector Byte 16), Memory.wf s.cfg.font s.mem →
    s.i.toNat + x.val < 4096 → Completes (.stRegs x) s fun t =>
      Completes (.ldRegs x) { t with v := v } fun u =>
        (∀ r : Reg, r ≤ x → u.reg r = s.reg r) ∧ (∀ r : Reg, x < r → u.reg r = v[r])

/-- 20_memory.md R64: the bytes a register dump stored are the word that the very next fetch there
reads. The premise on memory is about the model's own representation (DESIGN CHOICE, assumption log 11). -/
def Obligations.StoredBytesAreFetchedNext : Prop :=
  ∀ (x : Reg) (s : State), Memory.wf s.cfg.font s.mem → 1 ≤ x.val → s.i.toNat + x.val < 4096 →
    Completes (.stRegs x) s fun t =>
      ∃ w, State.fetch { t with pc := s.i } = .ok w ∧
        w.toNat = (s.reg 0).toNat * 256 + (s.reg 1).toNat

/-- The canonical form is canonical: two memories in it that read alike are equal (the model's own
representation, assumption log 11). -/
def Obligations.CanonicalMemoriesEqualWhenReadsAgree : Prop :=
  ∀ (font : Vector Byte 80) (m m' : Memory), Memory.wf font m → Memory.wf font m' →
    (∀ a, a < 4096 → Memory.read font m a = Memory.read font m' a) → m = m'

/-! ## Rules about every instruction -/

/-- 60_exceptions.md R182, R183, R185, R186, R188: at execute an instruction faults exactly on its one
condition, with that fault. The word recorded is the one fetched, ignored bits included (DEDUCED, assumption log
7). -/
def Obligations.ExecuteFaultsExactly : Prop :=
  ∀ (i : Instr) (s : State) (f : Fault), exec i s = .fault f ↔ executeFault i s = some f

/-- 30_encoding.md R91: "every word either executes by a rule of this spec or raises
`UnknownInstruction`"; no operation of the model is refused. -/
def Obligations.NothingIsRefused : Prop :=
  (∀ (i : Instr) (s : State) (r : Refusal), exec i s ≠ .refused r) ∧
    ∀ (s : State) (r : Refusal), step s ≠ .refused r

/-- 10_state.md R26: the complete list of how each instruction moves `pc`. -/
def Obligations.PcMovesAsListed : Prop :=
  ∀ (i : Instr) (s t : State), exec i s = .next t → t.pc.toNat = pcAfter i s

/-- 10_state.md R20, column "written by": what an instruction does not write is as before. -/
def Obligations.InstructionsWriteOnlyListedState : Prop :=
  ∀ (i : Instr) (s t : State), exec i s = .next t →
    KeepsAllBut (.pc :: .result :: writtenBy i) s t

/-- 10_state.md R21, R22: a register that is neither an ordinary destination nor, for one of the seven
flag writers, `V[15]`, is as before. -/
def Obligations.RegistersChangeOnlyAsDestinationOrFlag : Prop :=
  ∀ (i : Instr) (s t : State) (r : Reg), exec i s = .next t → ¬ IsDestination r i →
    ¬ (r = 15 ∧ WritesFlag i) → t.reg r = s.reg r

/-- 10_state.md R37: `redraw` exactly for CLS and DRW, `waiting` exactly for an Fx0A that does not
complete. The field that holds the outputs is the model's own (DESIGN CHOICE, assumption log 6). -/
def Obligations.OutputsOfEveryInstruction : Prop :=
  ∀ (i : Instr) (s t : State), exec i s = .next t → t.result = outputsOf i s

/-- 10_state.md R44: "Only Fx0A reads it" (`key_pressed`) and "only Cxnn reads it" (`rnd`): every other
instruction's outcome is the same whatever the input is. The field that holds the inputs is the model's own (DESIGN
CHOICE, assumption log 4). -/
def Obligations.InputsReachOnlyTheirReaders : Prop :=
  ∀ (i : Instr) (s : State) (k : Bool) (r : Byte),
    ((∀ x, i ≠ .ldVxK x) →
      exec i { s with inputs := { s.inputs with keyPressed := k } } =
        mapNext (fun t => { t with inputs := { t.inputs with keyPressed := k } }) (exec i s)) ∧
    ((∀ x nn, i ≠ .rnd x nn) →
      exec i { s with inputs := { s.inputs with rnd := r } } =
        mapNext (fun t => { t with inputs := { t.inputs with rnd := r } }) (exec i s))

/-- 10_state.md R30: "no instruction reads it": the outcome of every instruction but the one that writes
`ST` is the same whatever `ST` is, and that one's does not depend on the old value. -/
def Obligations.SoundTimerIsNeverRead : Prop :=
  ∀ (i : Instr) (s : State) (b : Byte),
    ((∀ x, i ≠ .ldStVx x) → exec i { s with st := b } = mapNext (fun t => { t with st := b }) (exec i s)) ∧
    (∀ x, exec (.ldStVx x) { s with st := b } = exec (.ldStVx x) s)

/-- 30_encoding.md R86, R90 and 40_family_0_1_2.md R102: the bits the decoder does not examine change no
next state. That the instruction term keeps them is the model's choice (DESIGN CHOICE, assumption log 7), and so they
stay visible in the word a fault records. -/
def Obligations.IgnoredBitsChangeNoState : Prop :=
  ∀ (x y y' : Reg) (z z' : Nibble) (a a' : Addr12) (s : State),
    exec (.cls z) s = exec (.cls z') s ∧ exec (.nop a) s = exec (.nop a') s ∧
    exec (.seReg x y z) s = exec (.seReg x y z') s ∧ exec (.sneReg x y z) s = exec (.sneReg x y z') s ∧
    exec (.shr x y) s = exec (.shr x y') s ∧ exec (.shl x y) s = exec (.shl x y') s ∧
    ∀ t, exec (.ret z) s = .next t ↔ exec (.ret z') s = .next t

/-- 60_exceptions.md R191: a fault leaves the state as it was, so that another STEP raises the same fault
again, whatever its inputs are. The model's fault carries no state, and the state after it is read as the one before it
(DEDUCED, assumption log 10). -/
def Obligations.FaultRepeatsOnTheNextStep : Prop :=
  ∀ (s : State) (k k' : Bool) (r r' : Byte) (rest rest' : List HostOp) (f : Fault),
    step (scheduled s (.step k r) rest) = .fault f → step (scheduled s (.step k' r') rest') = .fault f

/-- 60_exceptions.md R180: the record of each fault, and code 1 for OversizedRom. That the record is computed
from what the fault's constructor holds is an inference (DEDUCED, assumption log 15). -/
def Obligations.FaultRecordsCarryCodes : Prop :=
  ∀ (pc w : Word) (ow : Option Word) (a : Nat),
    (Fault.stackOverflow pc w).record = ⟨2, pc, some w, none⟩ ∧
    (Fault.stackUnderflow pc w).record = ⟨3, pc, some w, none⟩ ∧
    (Fault.unknownInstruction pc w).record = ⟨4, pc, some w, none⟩ ∧
    (Fault.memoryOutOfRange pc ow a).record = ⟨5, pc, ow, some a⟩ ∧
    (Fault.keyIndexOutOfRange pc w a).record = ⟨6, pc, some w, some a⟩ ∧
    OpResult.oversizedRom.code = 1

/-! ## Rules about every operation -/

/-- 10_state.md R25, R42: `pc` stays at most 0x10FE and every return address in use stays at most 4094,
whatever operation is next. That memory stays canonical is no rule of the spec: the canonical form is the model's own
(DESIGN CHOICE, assumption log 11). The host has no operation but the five (DESIGN CHOICE,
assumption log 16). -/
def Obligations.EveryOperationKeepsTheBounds : Prop :=
  ∀ s t : State, s.Inv → step s = .next t → t.Inv

/-- The bounds hold right after reset, whatever the parameters are: `pc` and the return addresses by
10_state.md R40, R42. That memory is canonical is no rule of the spec: the canonical form is the model's own (DESIGN
CHOICE, assumption log 11). -/
def Obligations.BoundsHoldAfterReset : Prop := ∀ cfg, (State.resetWith cfg).Inv

/-- 00_scope.md R6, 10_state.md R33: no operation changes the parameters; the keyboard snapshot changes
only by SET_KEYS and RESET. That the parameters stand in State is the model's choice (DESIGN CHOICE, assumption
log 1), and the host has no operation but the five (DESIGN CHOICE, assumption log 16). -/
def Obligations.ParametersFixedAndKeysHostWritten : Prop :=
  ∀ s t : State, step s = .next t → t.cfg = s.cfg ∧
    ((∀ keys rest, s.schedule ≠ .setKeys keys :: rest) → (∀ rest, s.schedule ≠ .reset :: rest) →
      ∀ k, t.key k = s.key k)

/-- 70_reset_and_hazards.md R211: at a `JP` to itself every further STEP returns `Ok{redraw=0,
waiting=0}`, changes nothing and leaves the run ended. That this is the end of a run is the model's choice of R211's
recommended predicate (DESIGN CHOICE, assumption log 13). -/
def Obligations.JumpToSelfIsAFixedPoint : Prop :=
  ∀ (s : State) (k : Bool) (r : Byte) (rest : List HostOp), s.Ended →
    Performs (scheduled s (.step k r) rest) fun t =>
      t.result = .stepOk false false ∧ KeepsAllBut [.result] (executing s k r rest) t ∧ t.Ended
end

