-- ==== Sys2Proof/Laws/Decode.lean ====
section
/-! SUPPORT. The fields of the words the encoder builds, a word put together from its fields, and the fields
as quotients and remainders (spec/00_scope.md R7, 30_encoding.md R81). -/

namespace Sys2Proof

/-! ## Parts of an append -/

theorem extract_high {m n : Nat} (a : BitVec m) (b : BitVec n) : (a ++ b).extractLsb' n m = a := by
  apply BitVec.eq_of_getLsbD_eq
  intro i hi
  simp [BitVec.getLsbD_append, hi]

theorem extract_low {m n : Nat} (a : BitVec m) (b : BitVec n) (k l : Nat) (h : k + l ≤ n) :
    (a ++ b).extractLsb' k l = b.extractLsb' k l := by
  apply BitVec.eq_of_getLsbD_eq
  intro i hi
  have : k + i < n := by omega
  simp [BitVec.getLsbD_append, hi, this]

theorem extract_all {n : Nat} (b : BitVec n) : b.extractLsb' 0 n = b := by
  apply BitVec.eq_of_getLsbD_eq
  intro i hi
  simp [hi]

theorem regBits_toFin (x : Reg) : (regBits x).toFin = x := rfl

theorem regBits_of_toFin (b : Nibble) : regBits b.toFin = b := rfl

/-! ## Fields of the four formats -/

theorem wordNNN_family (f : Nibble) (a : Addr12) : Word.family (wordNNN f a) = f :=
  extract_high f a

theorem wordNNN_nnn (f : Nibble) (a : Addr12) : Word.nnn (wordNNN f a) = a := by
  rw [Word.nnn, wordNNN, extract_low _ _ _ _ (by decide), extract_all]

theorem wordNNN_nn (f : Nibble) (a : Addr12) : Word.nn (wordNNN f a) = lowByte a := by
  rw [Word.nn, wordNNN, extract_low _ _ _ _ (by decide), lowByte]
  apply BitVec.eq_of_getLsbD_eq
  intro i hi
  simp [hi]

theorem wordXNN_family (f : Nibble) (x : Reg) (b : Byte) : Word.family (wordXNN f x b) = f :=
  extract_high f (regBits x ++ b)

theorem wordXNN_nib2 (f : Nibble) (x : Reg) (b : Byte) : Word.nib2 (wordXNN f x b) = regBits x := by
  rw [Word.nib2, wordXNN, extract_low _ _ _ _ (by decide)]
  exact extract_high (regBits x) b

theorem wordXNN_x (f : Nibble) (x : Reg) (b : Byte) : Word.x (wordXNN f x b) = x := by
  rw [Word.x, wordXNN_nib2, regBits_toFin]

theorem wordXNN_nn (f : Nibble) (x : Reg) (b : Byte) : Word.nn (wordXNN f x b) = b := by
  rw [Word.nn, wordXNN, extract_low _ _ _ _ (by decide), extract_low _ _ _ _ (by decide), extract_all]

theorem wordXYN_family (f : Nibble) (x y : Reg) (n : Nibble) : Word.family (wordXYN f x y n) = f :=
  extract_high f (regBits x ++ (regBits y ++ n))

theorem wordXYN_x (f : Nibble) (x y : Reg) (n : Nibble) : Word.x (wordXYN f x y n) = x := by
  rw [Word.x, Word.nib2, wordXYN, extract_low _ _ _ _ (by decide)]
  exact congrArg BitVec.toFin (extract_high (regBits x) (regBits y ++ n))

theorem wordXYN_y (f : Nibble) (x y : Reg) (n : Nibble) : Word.y (wordXYN f x y n) = y := by
  rw [Word.y, Word.nib1, wordXYN, extract_low _ _ _ _ (by decide), extract_low _ _ _ _ (by decide)]
  exact congrArg BitVec.toFin (extract_high (regBits y) n)

theorem wordXYN_n (f : Nibble) (x y : Reg) (n : Nibble) : Word.n (wordXYN f x y n) = n := by
  rw [Word.n, wordXYN, extract_low _ _ _ _ (by decide), extract_low _ _ _ _ (by decide),
    extract_low _ _ _ _ (by decide), extract_all]

theorem wordZNN_family (z : Nibble) (b : Byte) : Word.family (wordZNN z b) = 0#4 :=
  extract_high 0#4 (z ++ b)

theorem wordZNN_nib2 (z : Nibble) (b : Byte) : Word.nib2 (wordZNN z b) = z := by
  rw [Word.nib2, wordZNN, extract_low _ _ _ _ (by decide)]
  exact extract_high z b

theorem wordZNN_nn (z : Nibble) (b : Byte) : Word.nn (wordZNN z b) = b := by
  rw [Word.nn, wordZNN, extract_low _ _ _ _ (by decide), extract_low _ _ _ _ (by decide), extract_all]

/-! ## A word from its fields -/

theorem wordNNN_of_fields (w : Word) : wordNNN w.family w.nnn = w := by
  apply BitVec.eq_of_getLsbD_eq
  intro i hi
  simp only [wordNNN, Word.family, Word.nnn, BitVec.getLsbD_append, BitVec.getLsbD_extractLsb']
  split
  · simp_all
  · next h =>
    have e : 12 + (i - 12) = i := by omega
    have h4 : i - 12 < 4 := by omega
    rw [e]
    simp [h4]

theorem wordXNN_of_fields (w : Word) : wordXNN w.family w.x w.nn = w := by
  apply BitVec.eq_of_getLsbD_eq
  intro i hi
  simp only [wordXNN, Word.family, Word.x, Word.nib2, Word.nn, regBits_of_toFin,
    BitVec.getLsbD_append, BitVec.getLsbD_extractLsb']
  split
  · split
    · simp_all
    · next h1 h2 =>
      have e : 8 + (i - 8) = i := by omega
      have h4 : i - 8 < 4 := by omega
      rw [e]
      simp [h4]
  · next h =>
    have e : 12 + (i - 12) = i := by omega
    have h4 : i - 12 < 4 := by omega
    have e2 : 4 + 8 = 12 := rfl
    rw [e2, e]
    simp [h4]

theorem wordXYN_of_fields (w : Word) : wordXYN w.family w.x w.y w.n = w := by
  apply BitVec.eq_of_getLsbD_eq
  intro i hi
  simp only [wordXYN, Word.family, Word.x, Word.y, Word.nib2, Word.nib1, Word.n, regBits_of_toFin,
    BitVec.getLsbD_append, BitVec.getLsbD_extractLsb']
  rcases Nat.lt_or_ge i 4 with h | h
  · simp [h, show i < 12 by omega, show i < 8 by omega]
  · rcases Nat.lt_or_ge i 8 with h8 | h8
    · simp [show ¬ i < 4 by omega, show i < 12 by omega, h8, show i - 4 < 4 by omega,
        show 4 + (i - 4) = i by omega]
    · rcases Nat.lt_or_ge i 12 with h12 | h12
      · simp [h12, show ¬ i < 8 by omega, show i - 8 < 4 by omega, show 8 + (i - 8) = i by omega]
      · simp [show ¬ i < 12 by omega, show i - 12 < 4 by omega, show 12 + (i - 12) = i by omega]

theorem wordZNN_of_fields (w : Word) (h : w.family = 0#4) : wordZNN w.nib2 w.nn = w := by
  have := wordXNN_of_fields w
  rw [h] at this
  exact this

/-! ## Fields as numbers (00_scope.md R7) -/

theorem Word.family_toNat (w : Word) : w.family.toNat = w.toNat / 4096 := by
  have := w.isLt
  simp only [Word.family, BitVec.extractLsb'_toNat, Nat.shiftRight_eq_div_pow]
  omega

theorem Word.nib2_toNat (w : Word) : w.nib2.toNat = w.toNat / 256 % 16 := by
  simp [Word.nib2, BitVec.extractLsb'_toNat, Nat.shiftRight_eq_div_pow]

theorem Word.nib1_toNat (w : Word) : w.nib1.toNat = w.toNat / 16 % 16 := by
  simp [Word.nib1, BitVec.extractLsb'_toNat, Nat.shiftRight_eq_div_pow]

theorem Word.n_toNat (w : Word) : w.n.toNat = w.toNat % 16 := by
  simp [Word.n, BitVec.extractLsb'_toNat]

theorem Word.nn_toNat (w : Word) : w.nn.toNat = w.toNat % 256 := by
  simp [Word.nn, BitVec.extractLsb'_toNat]

theorem Word.nnn_toNat (w : Word) : w.nnn.toNat = w.toNat % 4096 := by
  simp [Word.nnn, BitVec.extractLsb'_toNat]

theorem wordOfBytes_toNat (hi lo : Byte) : (wordOfBytes hi lo).toNat = hi.toNat * 256 + lo.toNat := by
  have := lo.isLt
  rw [wordOfBytes, BitVec.toNat_append, ← Nat.shiftLeft_add_eq_or_of_lt lo.isLt,
    Nat.shiftLeft_eq]

/-- A word is the big-endian combination of its two bytes. -/
theorem wordOfBytes_hi_lo (w : Word) : wordOfBytes w.hi w.lo = w := by
  apply BitVec.eq_of_toNat_eq
  have := w.isLt
  rw [wordOfBytes_toNat]
  simp only [Word.hi, Word.lo, BitVec.extractLsb'_toNat, Nat.shiftRight_eq_div_pow]
  omega

theorem wordOfBytes_hi (hi lo : Byte) : Word.hi (wordOfBytes hi lo) = hi :=
  extract_high hi lo

theorem wordOfBytes_lo (hi lo : Byte) : Word.lo (wordOfBytes hi lo) = lo := by
  rw [Word.lo, wordOfBytes, extract_low _ _ _ _ (by decide), extract_all]

end Sys2Proof
end

