-- ==== Sys2Proof/Laws/Memory.lean ====
section
/-! SUPPORT. The laws of memory: read after write, frame, the canonical form and its uniqueness. -/

namespace Sys2Proof.Machine

variable {font : Vector Byte 80}

theorem Memory.read_cons (m : Memory) (k : Nat) (v : Byte) (a : Nat) :
    Memory.read font ((k, v) :: m) a = if a = k then v else Memory.read font m a := rfl

/-- An address below every listed one reads as the reset content. -/
theorem Memory.read_of_lt (m : Memory) (a : Nat) (h : ∀ c ∈ m, a < c.1) :
    Memory.read font m a = Memory.background font a := by
  induction m with
  | nil => rfl
  | cons c m ih =>
    have hc : a ≠ c.1 := Nat.ne_of_lt (h c (by simp))
    rw [Memory.read_cons, if_neg hc, ih (fun d hd => h d (by simp [hd]))]

/-- Reading through `cons`, when the address is below every cell of the list. -/
theorem Memory.read_consCell (m : Memory) (a : Nat) (b : Byte) (h : ∀ c ∈ m, a < c.1) (x : Nat) :
    Memory.read font (Memory.cons font a b m) x = if x = a then b else Memory.read font m x := by
  unfold Memory.cons
  split
  · next hb =>
    split
    · next hx => rw [hx, Memory.read_of_lt m a h, hb]
    · rfl
  · rfl

/-- Reading a byte after writing one: the written byte at its address, every other as before. The list
has its addresses rising. -/
theorem Memory.read_write (m : Memory) (hm : m.Pairwise (fun c d => c.1 < d.1)) (a : Nat) (b : Byte)
    (x : Nat) :
    Memory.read font (Memory.write font m a b) x = if x = a then b else Memory.read font m x := by
  induction m with
  | nil => exact Memory.read_consCell [] a b (by simp) x
  | cons c m ih =>
    obtain ⟨k, v⟩ := c
    rw [List.pairwise_cons] at hm
    rw [Memory.write]
    split
    · next hlt =>
      apply Memory.read_consCell
      intro d hd
      rcases List.mem_cons.mp hd with rfl | hd
      · exact hlt
      · exact Nat.lt_trans hlt (hm.1 d hd)
    · split
      · next hlt heq =>
        rw [Memory.read_consCell m a b (fun d hd => heq ▸ hm.1 d hd), Memory.read_cons, ← heq]
        split <;> rfl
      · next hlt hne =>
        rw [Memory.read_cons, ih hm.2, Memory.read_cons]
        split
        · next hx => rw [if_neg (by omega)]
        · rfl

theorem Memory.mem_cons_cell {m : Memory} {a : Nat} {b : Byte} {c : Host.Cell}
    (h : c ∈ Memory.cons font a b m) : c ∈ m ∨ (c = (a, b) ∧ b ≠ Memory.background font a) := by
  unfold Memory.cons at h
  split at h
  · exact .inl h
  · next hb =>
    rcases List.mem_cons.mp h with h | h
    · exact .inr ⟨h, hb⟩
    · exact .inl h

/-- A cell of the written memory is an old one or the written one. -/
theorem Memory.mem_write {m : Memory} {a : Nat} {b : Byte} {c : Host.Cell}
    (h : c ∈ Memory.write font m a b) : c ∈ m ∨ (c = (a, b) ∧ b ≠ Memory.background font a) := by
  induction m with
  | nil => exact Memory.mem_cons_cell h
  | cons d m ih =>
    obtain ⟨k, v⟩ := d
    rw [Memory.write] at h
    split at h
    · exact Memory.mem_cons_cell h
    · split at h
      · exact (Memory.mem_cons_cell h).imp (List.mem_cons_of_mem _) id
      · rcases List.mem_cons.mp h with h | h
        · exact .inl (h ▸ List.mem_cons_self)
        · exact (ih h).imp (List.mem_cons_of_mem _) id

theorem Memory.pairwise_consCell (m : Memory) (a : Nat) (b : Byte)
    (hm : m.Pairwise (fun c d => c.1 < d.1)) (h : ∀ c ∈ m, a < c.1) :
    (Memory.cons font a b m).Pairwise (fun c d => c.1 < d.1) := by
  unfold Memory.cons
  split
  · exact hm
  · exact List.pairwise_cons.mpr ⟨h, hm⟩

theorem Memory.pairwise_write (m : Memory) (hm : m.Pairwise (fun c d => c.1 < d.1)) (a : Nat)
    (b : Byte) : (Memory.write font m a b).Pairwise (fun c d => c.1 < d.1) := by
  induction m with
  | nil => exact Memory.pairwise_consCell [] a b hm (by simp)
  | cons c m ih =>
    obtain ⟨k, v⟩ := c
    have hm' := List.pairwise_cons.mp hm
    rw [Memory.write]
    split
    · next hlt =>
      apply Memory.pairwise_consCell _ _ _ hm
      intro d hd
      rcases List.mem_cons.mp hd with rfl | hd
      · exact hlt
      · exact Nat.lt_trans hlt (hm'.1 d hd)
    · split
      · next hlt heq =>
        exact Memory.pairwise_consCell _ _ _ hm'.2 (fun d hd => heq ▸ hm'.1 d hd)
      · next hlt hne =>
        refine List.pairwise_cons.mpr ⟨fun d hd => ?_, ih hm'.2⟩
        rcases Memory.mem_write hd with hd | ⟨rfl, -⟩
        · exact hm'.1 d hd
        · exact Nat.lt_of_le_of_ne (Nat.le_of_not_lt hlt) (Ne.symm hne)

/-- A write inside the address space keeps the canonical form. -/
theorem Memory.wf_write {m : Memory} (h : Memory.wf font m) {a : Nat} (ha : a < memSize) (b : Byte) :
    Memory.wf font (Memory.write font m a b) := by
  refine ⟨Memory.pairwise_write m h.1 a b, fun c hc => ?_⟩
  rcases Memory.mem_write hc with hc | ⟨rfl, hb⟩
  · exact h.2 c hc
  · exact ⟨ha, hb⟩

/-- A run of writes inside the address space keeps the canonical form. -/
theorem Memory.wf_writeBytes {m : Memory} (h : Memory.wf font m) (a : Nat) (bs : List Byte)
    (ha : a + bs.length ≤ memSize) : Memory.wf font (Memory.writeBytes font m a bs) := by
  induction bs generalizing m a with
  | nil => exact h
  | cons b bs ih =>
    rw [List.length_cons] at ha
    exact ih (Memory.wf_write h (by omega) b) (a + 1) (by omega)

theorem Memory.pairwise_writeBytes (m : Memory) (hm : m.Pairwise (fun c d => c.1 < d.1)) (a : Nat)
    (bs : List Byte) : (Memory.writeBytes font m a bs).Pairwise (fun c d => c.1 < d.1) := by
  induction bs generalizing m a with
  | nil => exact hm
  | cons b bs ih => exact ih _ (Memory.pairwise_write m hm a b) (a + 1)

/-- Reading a byte after a run of writes. -/
theorem Memory.read_writeBytes (m : Memory) (hm : m.Pairwise (fun c d => c.1 < d.1)) (a : Nat)
    (bs : List Byte) (x : Nat) :
    Memory.read font (Memory.writeBytes font m a bs) x =
      if a ≤ x then (bs[x - a]?).getD (Memory.read font m x) else Memory.read font m x := by
  induction bs generalizing m a with
  | nil => simp [Memory.writeBytes]
  | cons b bs ih =>
    rw [Memory.writeBytes, ih _ (Memory.pairwise_write m hm a b), Memory.read_write m hm]
    rcases Nat.lt_trichotomy a x with h | h | h
    · have h2 : x - a = (x - (a + 1)) + 1 := by omega
      simp [Nat.le_of_lt h, Nat.succ_le_of_lt h, h2, Nat.ne_of_gt h]
    · subst h
      simp
    · simp [Nat.not_le.mpr h, Nat.not_le.mpr (Nat.lt_succ_of_lt h), Nat.ne_of_lt h]

theorem Memory.wf_tail {c : Host.Cell} {m : Memory} (h : Memory.wf font (c :: m)) :
    Memory.wf font m ∧ ∀ d ∈ m, c.1 < d.1 :=
  ⟨⟨(List.pairwise_cons.mp h.1).2, fun d hd => h.2 d (List.mem_cons_of_mem _ hd)⟩,
    (List.pairwise_cons.mp h.1).1⟩

/-- The reset memory is canonical. -/
theorem Memory.wf_nil : Memory.wf font [] := ⟨List.Pairwise.nil, by simp⟩

end Sys2Proof.Machine
end

