-- ==== Sys2Proof/Laws/State.lean ====
section
/-! SUPPORT. The fields after each update of the state, and reading a register after writing one. -/

namespace Sys2Proof.Machine

/-! ## Registers -/

@[simp] theorem State.reg_setReg_same (s : State) (r : Reg) (b : Byte) : (s.setReg r b).reg r = b := by
  simp [State.reg, State.setReg]

theorem State.reg_setReg (s : State) (r q : Reg) (b : Byte) :
    (s.setReg r b).reg q = if q = r then b else s.reg q := by
  by_cases h : q = r
  · subst h; simp
  · have : ¬ r.val = q.val := fun e => h (Fin.ext e.symm)
    simp [State.reg, State.setReg, h, this]

@[simp] theorem State.setReg_i (s : State) (r b) : (s.setReg r b).i = s.i := rfl
@[simp] theorem State.setReg_pc (s : State) (r b) : (s.setReg r b).pc = s.pc := rfl
@[simp] theorem State.setReg_stack (s : State) (r b) : (s.setReg r b).stack = s.stack := rfl
@[simp] theorem State.setReg_sp (s : State) (r b) : (s.setReg r b).sp = s.sp := rfl
@[simp] theorem State.setReg_dt (s : State) (r b) : (s.setReg r b).dt = s.dt := rfl
@[simp] theorem State.setReg_st (s : State) (r b) : (s.setReg r b).st = s.st := rfl
@[simp] theorem State.setReg_fb (s : State) (r b) : (s.setReg r b).fb = s.fb := rfl
@[simp] theorem State.setReg_kb (s : State) (r b) : (s.setReg r b).kb = s.kb := rfl
@[simp] theorem State.setReg_mem (s : State) (r b) : (s.setReg r b).mem = s.mem := rfl
@[simp] theorem State.setReg_cfg (s : State) (r b) : (s.setReg r b).cfg = s.cfg := rfl
@[simp] theorem State.setReg_inputs (s : State) (r b) : (s.setReg r b).inputs = s.inputs := rfl
@[simp] theorem State.setReg_schedule (s : State) (r b) : (s.setReg r b).schedule = s.schedule := rfl
@[simp] theorem State.setReg_draws (s : State) (r b) : (s.setReg r b).draws = s.draws := rfl
@[simp] theorem State.setReg_result (s : State) (r b) : (s.setReg r b).result = s.result := rfl

/-! ## Completion -/

@[simp] theorem State.finish_v (s : State) (p r) : (s.finish p r).v = s.v := rfl
@[simp] theorem State.finish_reg (s : State) (p r q) : (s.finish p r).reg q = s.reg q := rfl
@[simp] theorem State.finish_i (s : State) (p r) : (s.finish p r).i = s.i := rfl
@[simp] theorem State.finish_pc (s : State) (p r) : (s.finish p r).pc = p := rfl
@[simp] theorem State.finish_stack (s : State) (p r) : (s.finish p r).stack = s.stack := rfl
@[simp] theorem State.finish_sp (s : State) (p r) : (s.finish p r).sp = s.sp := rfl
@[simp] theorem State.finish_dt (s : State) (p r) : (s.finish p r).dt = s.dt := rfl
@[simp] theorem State.finish_st (s : State) (p r) : (s.finish p r).st = s.st := rfl
@[simp] theorem State.finish_fb (s : State) (p r) : (s.finish p r).fb = s.fb := rfl
@[simp] theorem State.finish_kb (s : State) (p r) : (s.finish p r).kb = s.kb := rfl
@[simp] theorem State.finish_mem (s : State) (p r) : (s.finish p r).mem = s.mem := rfl
@[simp] theorem State.finish_cfg (s : State) (p r) : (s.finish p r).cfg = s.cfg := rfl
@[simp] theorem State.finish_inputs (s : State) (p r) : (s.finish p r).inputs = s.inputs := rfl
@[simp] theorem State.finish_schedule (s : State) (p r) : (s.finish p r).schedule = s.schedule := rfl
@[simp] theorem State.finish_draws (s : State) (p r) : (s.finish p r).draws = s.draws := rfl
@[simp] theorem State.finish_result (s : State) (p r) :
    (s.finish p r).result = .stepOk r false := rfl

/-- The spellings of completion are all `finish`. -/
theorem State.advance_eq (s : State) : s.advance = s.finish (s.pc + 2#16) false := rfl

theorem State.advanceRedraw_eq (s : State) : s.advanceRedraw = s.finish (s.pc + 2#16) true := rfl

theorem State.skipIf_eq (s : State) (c : Bool) :
    s.skipIf c = s.finish (s.pc + if c then 4#16 else 2#16) false := rfl

@[simp] theorem State.wait_result (s : State) : s.wait.result = .stepOk false true := rfl
@[simp] theorem State.wait_pc (s : State) : s.wait.pc = s.pc := rfl
@[simp] theorem State.wait_reg (s : State) (q) : s.wait.reg q = s.reg q := rfl

/-! ## Storing and loading runs of bytes -/

@[simp] theorem State.storeBytes_v (s : State) (a bs) : (s.storeBytes a bs).v = s.v := rfl
@[simp] theorem State.storeBytes_reg (s : State) (a bs q) : (s.storeBytes a bs).reg q = s.reg q := rfl
@[simp] theorem State.storeBytes_i (s : State) (a bs) : (s.storeBytes a bs).i = s.i := rfl
@[simp] theorem State.storeBytes_pc (s : State) (a bs) : (s.storeBytes a bs).pc = s.pc := rfl
@[simp] theorem State.storeBytes_stack (s : State) (a bs) : (s.storeBytes a bs).stack = s.stack := rfl
@[simp] theorem State.storeBytes_sp (s : State) (a bs) : (s.storeBytes a bs).sp = s.sp := rfl
@[simp] theorem State.storeBytes_dt (s : State) (a bs) : (s.storeBytes a bs).dt = s.dt := rfl
@[simp] theorem State.storeBytes_st (s : State) (a bs) : (s.storeBytes a bs).st = s.st := rfl
@[simp] theorem State.storeBytes_fb (s : State) (a bs) : (s.storeBytes a bs).fb = s.fb := rfl
@[simp] theorem State.storeBytes_kb (s : State) (a bs) : (s.storeBytes a bs).kb = s.kb := rfl
@[simp] theorem State.storeBytes_cfg (s : State) (a bs) : (s.storeBytes a bs).cfg = s.cfg := rfl
@[simp] theorem State.storeBytes_inputs (s : State) (a bs) : (s.storeBytes a bs).inputs = s.inputs := rfl
@[simp] theorem State.storeBytes_schedule (s : State) (a bs) :
    (s.storeBytes a bs).schedule = s.schedule := rfl
@[simp] theorem State.storeBytes_draws (s : State) (a bs) : (s.storeBytes a bs).draws = s.draws := rfl
@[simp] theorem State.storeBytes_result (s : State) (a bs) : (s.storeBytes a bs).result = s.result := rfl
@[simp] theorem State.storeBytes_mem (s : State) (a bs) :
    (s.storeBytes a bs).mem = s.mem.writeBytes s.cfg.font a bs := rfl

/-- Loading registers changes `v` only. -/
theorem State.loadRegs_eq (s : State) (k : Nat) (bs : List Byte) :
    s.loadRegs k bs = { s with v := (s.loadRegs k bs).v } := by
  induction bs generalizing s k with
  | nil => rfl
  | cons b bs ih => rw [State.loadRegs, ih]

@[simp] theorem State.loadRegs_i (s : State) (k bs) : (s.loadRegs k bs).i = s.i := by
  rw [State.loadRegs_eq]
@[simp] theorem State.loadRegs_pc (s : State) (k bs) : (s.loadRegs k bs).pc = s.pc := by
  rw [State.loadRegs_eq]
@[simp] theorem State.loadRegs_stack (s : State) (k bs) : (s.loadRegs k bs).stack = s.stack := by
  rw [State.loadRegs_eq]
@[simp] theorem State.loadRegs_sp (s : State) (k bs) : (s.loadRegs k bs).sp = s.sp := by
  rw [State.loadRegs_eq]
@[simp] theorem State.loadRegs_dt (s : State) (k bs) : (s.loadRegs k bs).dt = s.dt := by
  rw [State.loadRegs_eq]
@[simp] theorem State.loadRegs_st (s : State) (k bs) : (s.loadRegs k bs).st = s.st := by
  rw [State.loadRegs_eq]
@[simp] theorem State.loadRegs_fb (s : State) (k bs) : (s.loadRegs k bs).fb = s.fb := by
  rw [State.loadRegs_eq]
@[simp] theorem State.loadRegs_kb (s : State) (k bs) : (s.loadRegs k bs).kb = s.kb := by
  rw [State.loadRegs_eq]
@[simp] theorem State.loadRegs_mem (s : State) (k bs) : (s.loadRegs k bs).mem = s.mem := by
  rw [State.loadRegs_eq]
@[simp] theorem State.loadRegs_cfg (s : State) (k bs) : (s.loadRegs k bs).cfg = s.cfg := by
  rw [State.loadRegs_eq]
@[simp] theorem State.loadRegs_inputs (s : State) (k bs) : (s.loadRegs k bs).inputs = s.inputs := by
  rw [State.loadRegs_eq]
@[simp] theorem State.loadRegs_schedule (s : State) (k bs) : (s.loadRegs k bs).schedule = s.schedule := by
  rw [State.loadRegs_eq]
@[simp] theorem State.loadRegs_draws (s : State) (k bs) : (s.loadRegs k bs).draws = s.draws := by
  rw [State.loadRegs_eq]
@[simp] theorem State.loadRegs_result (s : State) (k bs) : (s.loadRegs k bs).result = s.result := by
  rw [State.loadRegs_eq]

/-- Register `r` after loading `bs` into the registers from `k` on. -/
theorem State.reg_loadRegs (s : State) (k : Nat) (bs : List Byte) (r : Reg) :
    (s.loadRegs k bs).reg r =
      if k ≤ r.val then (bs[r.val - k]?).getD (s.reg r) else s.reg r := by
  induction bs generalizing s k with
  | nil => simp [State.loadRegs]
  | cons b bs ih =>
    rw [State.loadRegs, ih]
    have hreg : ∀ v : Vector Byte 16, ({ s with v := v } : State).reg r = v[r.val] := fun _ => rfl
    rw [hreg, Vector.getElem_setIfInBounds]
    have hs : s.reg r = s.v[r.val] := rfl
    rw [hs]
    rcases Nat.lt_trichotomy k r.val with h | h | h
    · have h2 : r.val - k = (r.val - (k + 1)) + 1 := by omega
      simp [h, Nat.le_of_lt h, h2, Nat.ne_of_lt h]
    · subst h
      simp
    · simp [Nat.not_le.mpr h, Nat.not_le.mpr (Nat.lt_succ_of_lt h), Nat.ne_of_gt h]

end Sys2Proof.Machine
end

