-- ==== Sys2Proof/Laws/Ops.lean ====
section
/-! SUPPORT. What each shared operation can do, said once (spec/20_memory.md R57, 10_state.md R23, R28,
44_family_E_keys.md R150). -/

namespace Sys2Proof.Machine

/-! ## The bounds check -/

/-- No address is out of range exactly when the run ends inside the memory, or is empty. -/
theorem firstOutOfRange_eq_none (base len : Nat) :
    firstOutOfRange base len = none ↔ len = 0 ∨ base + len ≤ memSize := by
  simp only [firstOutOfRange, List.find?_eq_none, List.mem_map, List.mem_range, decide_eq_true_eq,
    forall_exists_index, and_imp, forall_apply_eq_imp_iff₂]
  constructor
  · intro h
    rcases Nat.eq_zero_or_pos len with h0 | h0
    · exact .inl h0
    · have := h (len - 1) (by omega)
      exact .inr (by omega)
  · intro h k hk
    omega

/-- The reported address is the lowest one that is not in the memory. -/
theorem firstOutOfRange_eq_some (base len a : Nat) :
    firstOutOfRange base len = some a ↔
      len ≠ 0 ∧ memSize < base + len ∧ a = max base memSize := by
  have key : ∀ b n : Nat, ((List.range' b n).find? (fun a => decide (memSize ≤ a)) = some a ↔
      n ≠ 0 ∧ memSize < b + n ∧ a = max b memSize) := by
    intro b n
    induction n generalizing b with
    | zero => simp
    | succ n ih =>
      rw [List.range'_succ, List.find?_cons]
      by_cases hb : memSize ≤ b
      · simp only [hb, decide_true]
        simp only [memSize] at hb ⊢
        rw [Option.some.injEq]
        omega
      · simp only [hb, decide_false, ih]
        simp only [memSize] at hb ⊢
        omega
  rw [firstOutOfRange, ← key base len]
  rw [List.range_eq_range', List.map_add_range']
  simp

/-- An access whose addresses are all in range goes on. -/
theorem accessing_ok (i : Instr) (s : State) (base len : Nat) (after : State)
    (h : len = 0 ∨ base + len ≤ memSize) : accessing i s base len after = .next after := by
  rw [accessing, (firstOutOfRange_eq_none base len).mpr h]

/-- An access with an address out of range faults on the first of them and changes nothing. -/
theorem accessing_fault (i : Instr) (s : State) (base len : Nat) (after : State) (h : len ≠ 0)
    (h2 : memSize < base + len) :
    accessing i s base len after =
      .fault (.memoryOutOfRange s.pc (some (encode i)) (max base memSize)) := by
  rw [accessing, (firstOutOfRange_eq_some base len _).mpr ⟨h, h2, rfl⟩]
  rfl

/-- An access that answers a next state had every address in range and answers what it was given. -/
theorem accessing_eq_next {i : Instr} {s : State} {base len : Nat} {after t : State}
    (h : accessing i s base len after = .next t) :
    t = after ∧ (len = 0 ∨ base + len ≤ memSize) := by
  unfold accessing at h
  split at h
  · simp [raise] at h
  · next hn =>
    injection h with h
    exact ⟨h.symm, (firstOutOfRange_eq_none _ _).mp hn⟩

/-! ## The call stack -/

theorem State.push_eq_some {s t : State} {w : Word} (h : s.push w = some t) :
    ∃ h : s.sp.val < stackDepth,
      t = { s with stack := s.stack.set s.sp.val w h, sp := ⟨s.sp.val + 1, Nat.succ_lt_succ h⟩ } := by
  unfold State.push at h
  split at h
  · next hs => exact ⟨hs, (Option.some.inj h).symm⟩
  · cases h

theorem State.push_eq_none (s : State) (w : Word) : s.push w = none ↔ s.sp.val = stackDepth := by
  have := s.sp.isLt
  unfold State.push
  split
  · next h => simp only [reduceCtorEq, false_iff]; omega
  · next h => simp only [true_iff]; simp only [stackDepth] at h ⊢; omega

theorem State.pop_eq_some {s t : State} {w : Word} (h : s.pop = some (w, t)) :
    s.sp.val ≠ 0 ∧ w = s.stackAt ⟨s.sp.val - 1, by have := s.sp.isLt; omega⟩ ∧
      t = { s with sp := ⟨s.sp.val - 1, by have := s.sp.isLt; omega⟩ } := by
  unfold State.pop at h
  split at h
  · cases h
  · next hs =>
    obtain ⟨h1, h2⟩ := Prod.mk.inj (Option.some.inj h)
    exact ⟨hs, h1.symm, h2.symm⟩

theorem State.pop_eq_none (s : State) : s.pop = none ↔ s.sp.val = 0 := by
  unfold State.pop
  split <;> simp_all

/-! ## Flag and result -/

/-- A register after a flag and a result: the result stands where both name `V[15]` (R23). -/
theorem State.reg_writeFlagged (s : State) (f : Bool) (d q : Reg) (b : Byte) :
    (s.writeFlagged f d b).reg q = if q = d then b else if q = vf then flagByte f else s.reg q := by
  rw [State.writeFlagged, State.reg_setReg, State.reg_setReg]

/-! ## Skips on a key -/

theorem State.skipOnKey_ok (s : State) (i : Instr) (x : Reg) (level : Bool)
    (h : (s.reg x).toNat < nKeys) :
    s.skipOnKey i x level = .next (s.skipIf (s.key ⟨(s.reg x).toNat, h⟩ == level)) := by
  rw [State.skipOnKey, dif_pos h]
  rfl

theorem State.skipOnKey_fault (s : State) (i : Instr) (x : Reg) (level : Bool)
    (h : ¬ (s.reg x).toNat < nKeys) :
    s.skipOnKey i x level = .fault (.keyIndexOutOfRange s.pc (encode i) (s.reg x).toNat) := by
  rw [State.skipOnKey, dif_neg h]
  rfl

/-! ## Runs of bytes -/

/-- One byte of memory after a run of stores. -/
theorem State.byteAt_storeBytes (s : State) (hm : s.mem.Pairwise (fun c d => c.1 < d.1)) (base : Nat)
    (bs : List Byte) (a : Nat) :
    (s.storeBytes base bs).byteAt a =
      if base ≤ a then (bs[a - base]?).getD (s.byteAt a) else s.byteAt a :=
  Memory.read_writeBytes s.mem hm base bs a

theorem State.bytesFrom_length (s : State) (base len : Nat) : (s.bytesFrom base len).length = len := by
  simp [State.bytesFrom]

theorem State.bytesFrom_getElem? (s : State) (base len k : Nat) :
    (s.bytesFrom base len)[k]? = if k < len then some (s.byteAt (base + k)) else none := by
  unfold State.bytesFrom
  split
  · next h => simp [h]
  · next h => simp [h]

theorem State.regsUpTo_getElem? (s : State) (x : Reg) (k : Nat) :
    (s.regsUpTo x)[k]? =
      if h : k ≤ x.val then some (s.reg ⟨k, Nat.lt_of_le_of_lt h x.isLt⟩) else none := by
  have hx := x.isLt
  unfold State.regsUpTo
  split
  · next h =>
    rw [List.getElem?_take, if_pos (by omega), Vector.getElem?_toList,
      Vector.getElem?_eq_getElem (Nat.lt_of_le_of_lt h x.isLt)]
    rfl
  · next h => rw [List.getElem?_take, if_neg (by omega)]

/-- Storing bytes whose addresses are in range keeps the canonical form of memory. -/
theorem State.wf_storeBytes (s : State) (hm : Memory.wf s.cfg.font s.mem) (base : Nat) (bs : List Byte)
    (h : base + bs.length ≤ memSize) :
    Memory.wf (s.storeBytes base bs).cfg.font (s.storeBytes base bs).mem :=
  Memory.wf_writeBytes hm base bs h

end Sys2Proof.Machine
end

