-- ==== Sys2Proof/Laws/Engine.lean ====
section
/-! SUPPORT. What fetch and a cycle can do, said once (spec/30_encoding.md R83). -/

namespace Sys2Proof.Machine

/-- With both bytes in memory, fetch reads the big-endian word at `pc`. -/
theorem State.fetch_ok (s : State) (h : s.pc.toNat + 1 < memSize) :
    s.fetch = .ok (wordOfBytes (s.byteAt s.pc.toNat) (s.byteAt (s.pc.toNat + 1))) := by
  rw [State.fetch, (firstOutOfRange_eq_none _ _).mpr (.inr (by simp only [insnBytes]; omega))]

/-- With `pc` at 4095 or more, fetch reports the first address out of range. -/
theorem State.fetch_error (s : State) (h : memSize ≤ s.pc.toNat + 1) :
    s.fetch = .error (max s.pc.toNat memSize) := by
  rw [State.fetch, (firstOutOfRange_eq_some _ _ _).mpr
    ⟨by decide, by simp only [insnBytes]; omega, rfl⟩]

/-- A fetch that gives a word had both bytes in memory. -/
theorem State.fetch_eq_ok {s : State} {w : Word} (h : s.fetch = .ok w) :
    s.pc.toNat + 1 < memSize ∧
      w = wordOfBytes (s.byteAt s.pc.toNat) (s.byteAt (s.pc.toNat + 1)) := by
  by_cases hp : s.pc.toNat + 1 < memSize
  · rw [State.fetch_ok s hp] at h
    exact ⟨hp, (Except.ok.inj h).symm⟩
  · rw [State.fetch_error s (Nat.le_of_not_lt hp)] at h
    cases h

/-- A cycle whose word decodes executes the instruction. -/
theorem State.cycle_exec {s : State} {w : Word} {i : Instr} (hf : s.fetch = .ok w)
    (hd : decodeWord w = .ok i) : s.cycle = exec i s := by
  simp only [State.cycle, hf, hd]

/-- A cycle that answers a next state fetched a word inside the memory, and either executed the
instruction it decodes to or was a reserved no-op of family 8. -/
theorem State.cycle_eq_next {s t : State} (h : s.cycle = .next t) :
    s.pc.toNat + 1 < memSize ∧ ((∃ i, exec i s = .next t) ∨ t = s.advance) := by
  unfold State.cycle at h
  split at h
  · cases h
  · next w hw =>
    refine ⟨(State.fetch_eq_ok hw).1, ?_⟩
    split at h
    · next i _ => exact .inl ⟨i, h⟩
    · unfold State.undecoded at h
      split at h
      · split at h
        · exact .inr (Host.Outcome.next.inj h).symm
        · cases h
      all_goals cases h

/-- What the next operation of a nonempty schedule is. -/
theorem step_cons (s : State) (op : HostOp) (rest : List HostOp) (h : s.schedule = op :: rest) :
    step s = { s with schedule := rest }.perform op := by
  rw [step, State.nextOperation, h]

/-- With an empty schedule the next operation is a STEP with free inputs. -/
theorem step_nil (s : State) (h : s.schedule = []) :
    step s = { s with draws := s.draws + 1 }.engineStep (freeInputs s.draws) := by
  rw [step, State.nextOperation, h]

/-- LOAD keeps the canonical form of memory, whatever the image is. -/
theorem State.wf_afterLoad (s : State) (hm : Memory.wf s.cfg.font s.mem) (bytes : List Byte) :
    Memory.wf (s.afterLoad bytes).cfg.font (s.afterLoad bytes).mem := by
  unfold State.afterLoad
  split
  · exact hm
  · next h =>
    have he := s.cfg.entryAddr.isLt
    exact State.wf_storeBytes s hm _ bytes (by simp only [romMax, memSize] at *; omega)

/-- Placing a word where the next STEP fetches it keeps the canonical form of memory. -/
theorem State.wf_placeWord (s : State) (hm : Memory.wf s.cfg.font s.mem) (w : Word) :
    Memory.wf (s.placeWord w).cfg.font (s.placeWord w).mem := by
  unfold State.placeWord
  split
  · next h => exact State.wf_storeBytes s hm _ _ (by simp only [List.length_cons, List.length_nil]; omega)
  · exact hm

end Sys2Proof.Machine
end

