-- ==== Sys2Proof/Laws/Frame.lean ====
section
/-! SUPPORT. Frames: a part of the state is kept when its fields are equal; how `pc` moves, as a number. -/

namespace Sys2Proof.Machine

/-- The fields behind a part of the state are equal. -/
def State.same (s t : State) : Part → Prop
  | .regs => t.v = s.v
  | .index => t.i = s.i
  | .pc => t.pc = s.pc
  | .stack => t.sp = s.sp ∧ t.stack = s.stack
  | .delay => t.dt = s.dt
  | .sound => t.st = s.st
  | .screen => t.fb = s.fb
  | .keys => t.kb = s.kb
  | .memory => t.mem = s.mem ∧ t.cfg = s.cfg
  | .config => t.cfg = s.cfg
  | .inputs => t.inputs = s.inputs
  | .schedule => t.schedule = s.schedule
  | .draws => t.draws = s.draws
  | .result => t.result = s.result

theorem State.keeps_of_same {s t : State} {p : Part} (h : s.same t p) : s.keeps t p := by
  cases p <;> simp only [State.same] at h <;> simp only [State.keeps]
  case stack => exact ⟨h.1, fun k => by simp only [State.stackAt, h.2]⟩
  case regs => intro r; simp only [State.reg, h]
  case screen => intro r c; simp only [State.cell, h]
  case keys => intro k; simp only [State.key, h]
  case memory => intro a; simp only [State.readByte, State.byteAt, h.1, h.2]
  all_goals exact h

/-- A frame from equal fields. -/
theorem keepsAllBut_of_same {W : List Part} {s t : State} (h : ∀ p, p ∉ W → s.same t p) :
    KeepsAllBut W s t :=
  fun p hp => State.keeps_of_same (h p hp)

theorem pc_add_two (p : Word) : (p + 2#16).toNat = (p.toNat + 2) % 65536 := by
  simp [BitVec.toNat_add]

theorem pc_add_four (p : Word) : (p + 4#16).toNat = (p.toNat + 4) % 65536 := by
  simp [BitVec.toNat_add]

end Sys2Proof.Machine
end

