-- ==== Sys2Proof/Laws/Screen.lean ====
section
/-! SUPPORT. The sprite blit cell by cell (spec/43_family_9_to_D.md R144). -/

namespace Sys2Proof.Machine

/-- One cell of a drawing. -/
def Drawing.cell (d : Drawing) (r : Fin 32) (c : Fin 64) : Bool := d.fb[r][c]

/-- A cell after one pixel. -/
theorem drawPixel_cell (row col : Nat) (bit : Bool) (d : Drawing) (r : Fin 32) (c : Fin 64) :
    (drawPixel row col bit d).cell r c =
      (d.cell r c ^^ (bit && decide (row = r.val ∧ col = c.val))) := by
  have hr := r.isLt
  have hc := c.isLt
  unfold drawPixel Drawing.cell
  split
  · next h =>
    simp only [Fin.getElem_fin, Vector.getElem_set]
    by_cases h1 : row = r.val
    · subst h1
      by_cases h2 : col = c.val
      · subst h2
        simp [Bool.xor_comm]
      · simp [h2]
    · simp [h1]
  · next h =>
    have : ¬ (row = r.val ∧ col = c.val) := fun e => h ⟨e.1 ▸ r.isLt, e.2 ▸ c.isLt⟩
    simp [this]

/-- The flag after one pixel: set when a lit cell of the grid is hit. -/
theorem drawPixel_hit (row col : Nat) (bit : Bool) (d : Drawing) :
    (drawPixel row col bit d).hit = true ↔
      d.hit = true ∨ ∃ (r : Fin 32) (c : Fin 64), row = r.val ∧ col = c.val ∧ bit = true ∧
        d.cell r c = true := by
  unfold drawPixel
  split
  · next h =>
    simp only [Bool.or_eq_true, Bool.and_eq_true]
    constructor
    · rintro (h1 | ⟨h1, h2⟩)
      · exact .inl h1
      · exact .inr ⟨⟨row, h.1⟩, ⟨col, h.2⟩, rfl, rfl, h1, h2⟩
    · rintro (h1 | ⟨r, c, rfl, rfl, h1, h2⟩)
      · exact .inl h1
      · exact .inr ⟨h1, h2⟩
  · next h =>
    constructor
    · exact .inl
    · rintro (h1 | ⟨r, c, rfl, rfl, -⟩)
      · exact h1
      · exact absurd ⟨r.isLt, c.isLt⟩ h

/-- A cell after the pixels of a list of distinct columns. -/
theorem drawPixels_cell (x0 row : Nat) (b : Byte) (r : Fin 32) (c : Fin 64) :
    ∀ (l : List Nat) (d : Drawing), l.Nodup →
      (l.foldl (fun d k => drawPixel row (x0 + k) (b.getLsbD (7 - k)) d) d).cell r c =
        (d.cell r c ^^
          decide (row = r.val ∧ ∃ k ∈ l, x0 + k = c.val ∧ b.getLsbD (7 - k) = true)) := by
  intro l
  induction l with
  | nil => intro d _; simp
  | cons k l ih =>
    intro d hn
    rw [List.nodup_cons] at hn
    rw [List.foldl_cons, ih _ hn.2, drawPixel_cell, Bool.xor_assoc]
    congr 1
    by_cases hr : row = r.val
    · by_cases hk : x0 + k = c.val
      · have : ¬ ∃ k' ∈ l, x0 + k' = c.val ∧ b.getLsbD (7 - k') = true := by
          rintro ⟨k', h1, h2, -⟩
          have : k' = k := by omega
          exact hn.1 (this ▸ h1)
        simp [hr, hk, this]
      · simp [hr, hk]
    · simp [hr]

/-- A cell after one sprite byte: XORed with its bit when it lies in the byte's eight columns. -/
theorem drawRow_cell (x0 row : Nat) (b : Byte) (d : Drawing) (r : Fin 32) (c : Fin 64) :
    (drawRow x0 row b d).cell r c =
      (d.cell r c ^^
        (decide (row = r.val ∧ x0 ≤ c.val ∧ c.val < x0 + 8) && b.getLsbD (7 - (c.val - x0)))) := by
  rw [drawRow, drawPixels_cell _ _ _ _ _ _ _ (List.nodup_range)]
  congr 1
  rw [Bool.eq_iff_iff]
  simp only [decide_eq_true_eq, List.mem_range, Bool.and_eq_true]
  constructor
  · rintro ⟨h, k, hk, e, hb⟩
    have : c.val - x0 = k := by omega
    rw [this]; exact ⟨⟨h, by omega, by omega⟩, hb⟩
  · rintro ⟨⟨h, h1, h2⟩, hb⟩
    exact ⟨h, c.val - x0, by omega, by omega, hb⟩

/-- The bit a sprite's bytes draw at a row and a column of the grid. -/
def spriteBit (x0 y0 : Nat) (bs : List Byte) (r : Fin 32) (c : Fin 64) : Bool :=
  decide (y0 ≤ r.val ∧ r.val < y0 + bs.length ∧ x0 ≤ c.val ∧ c.val < x0 + 8) &&
    (bs.getD (r.val - y0) 0#8).getLsbD (7 - (c.val - x0))

/-- A cell after a whole sprite: XORed with the sprite's bit there. -/
theorem drawRows_cell (x0 : Nat) (r : Fin 32) (c : Fin 64) : ∀ (bs : List Byte) (y0 : Nat) (d : Drawing),
    (drawRows x0 y0 bs d).cell r c = (d.cell r c ^^ spriteBit x0 y0 bs r c) := by
  intro bs
  induction bs with
  | nil => intro y0 d; simp [drawRows, spriteBit]
  | cons b bs ih =>
    intro y0 d
    rw [drawRows, ih, drawRow_cell, Bool.xor_assoc]
    congr 1
    unfold spriteBit
    rcases Nat.lt_trichotomy y0 r.val with h | h | h
    · have e : r.val - y0 = (r.val - (y0 + 1)) + 1 := by omega
      have e1 : ¬ y0 = r.val := by omega
      simp only [e1, false_and, decide_false, Bool.false_and, Bool.false_xor, e,
        List.getD_cons_succ, List.length_cons]
      congr 1
      simp only [decide_eq_decide]; omega
    · subst h
      simp
    · have e1 : ¬ y0 = r.val := by omega
      have e2 : ¬ y0 ≤ r.val := by omega
      have e3 : ¬ y0 + 1 ≤ r.val := by omega
      simp [e1, e2, e3]

/-- The flag after the pixels of a list of distinct columns. -/
theorem drawPixels_hit (x0 row : Nat) (b : Byte) :
    ∀ (l : List Nat) (d : Drawing), l.Nodup →
      ((l.foldl (fun d k => drawPixel row (x0 + k) (b.getLsbD (7 - k)) d) d).hit = true ↔
        d.hit = true ∨ ∃ (r : Fin 32) (c : Fin 64), d.cell r c = true ∧ row = r.val ∧
          ∃ k ∈ l, x0 + k = c.val ∧ b.getLsbD (7 - k) = true) := by
  intro l
  induction l with
  | nil => intro d _; simp
  | cons k l ih =>
    intro d hn
    rw [List.nodup_cons] at hn
    rw [List.foldl_cons, ih _ hn.2, drawPixel_hit, or_assoc]
    apply or_congr_right
    constructor
    · rintro (⟨r, c, h1, h2, h3, h4⟩ | ⟨r, c, h1, h2, k', h3, h4, h5⟩)
      · exact ⟨r, c, h4, h1, k, by simp, h2, h3⟩
      · rw [drawPixel_cell] at h1
        have : ¬ (row = r.val ∧ x0 + k = c.val) := by
          rintro ⟨-, e⟩
          have : k' = k := by omega
          exact hn.1 (this ▸ h3)
        simp [this] at h1
        exact ⟨r, c, h1, h2, k', by simp [h3], h4, h5⟩
    · rintro ⟨r, c, h1, h2, k', h3, h4, h5⟩
      rcases List.mem_cons.mp h3 with rfl | h3
      · exact .inl ⟨r, c, h2, h4, h5, h1⟩
      · refine .inr ⟨r, c, ?_, h2, k', h3, h4, h5⟩
        rw [drawPixel_cell]
        have : ¬ (row = r.val ∧ x0 + k = c.val) := by
          rintro ⟨-, e⟩
          have : k' = k := by omega
          exact hn.1 (this ▸ h3)
        simp [this, h1]

/-- The flag after one sprite byte: set when a lit bit meets a lit cell. -/
theorem drawRow_hit (x0 row : Nat) (b : Byte) (d : Drawing) :
    (drawRow x0 row b d).hit = true ↔ d.hit = true ∨ ∃ (r : Fin 32) (c : Fin 64), d.cell r c = true ∧
      (decide (row = r.val ∧ x0 ≤ c.val ∧ c.val < x0 + 8) && b.getLsbD (7 - (c.val - x0))) = true := by
  rw [drawRow, drawPixels_hit _ _ _ _ _ (List.nodup_range)]
  apply or_congr_right
  apply exists_congr; intro r; apply exists_congr; intro c
  apply and_congr_right; intro _
  simp only [decide_eq_true_eq, List.mem_range, Bool.and_eq_true]
  constructor
  · rintro ⟨h, k, hk, e, hb⟩
    have : c.val - x0 = k := by omega
    rw [this]; exact ⟨⟨h, by omega, by omega⟩, hb⟩
  · rintro ⟨⟨h, h1, h2⟩, hb⟩
    exact ⟨h, c.val - x0, by omega, by omega, hb⟩

/-- The flag after a whole sprite: set when a lit bit of it meets a lit cell of the screen before. -/
theorem drawRows_hit (x0 : Nat) : ∀ (bs : List Byte) (y0 : Nat) (d : Drawing),
    (drawRows x0 y0 bs d).hit = true ↔ d.hit = true ∨
      ∃ (r : Fin 32) (c : Fin 64), d.cell r c = true ∧ spriteBit x0 y0 bs r c = true := by
  intro bs
  induction bs with
  | nil =>
    intro y0 d
    simp only [drawRows, spriteBit, List.length_nil]
    constructor
    · exact .inl
    · rintro (h | ⟨r, c, -, h⟩)
      · exact h
      · simp at h
  | cons b bs ih =>
    intro y0 d
    rw [drawRows, ih, drawRow_hit, or_assoc]
    apply or_congr_right
    have key : ∀ (r : Fin 32) (c : Fin 64), spriteBit x0 y0 (b :: bs) r c =
        ((decide (y0 = r.val ∧ x0 ≤ c.val ∧ c.val < x0 + 8) && b.getLsbD (7 - (c.val - x0))) ||
          spriteBit x0 (y0 + 1) bs r c) ∧
        ¬ (y0 = r.val ∧ spriteBit x0 (y0+1) bs r c = true) := by
      intro r c
      unfold spriteBit
      rcases Nat.lt_trichotomy y0 r.val with h | h | h
      · have e : r.val - y0 = (r.val - (y0 + 1)) + 1 := by omega
        have e1 : ¬ y0 = r.val := by omega
        refine ⟨?_, fun a => e1 a.1⟩
        simp only [e1, false_and, decide_false, Bool.false_and, Bool.false_or, e,
          List.getD_cons_succ, List.length_cons]
        congr 1
        simp only [decide_eq_decide]; omega
      · subst h
        simp
      · have e1 : ¬ y0 = r.val := by omega
        have e2 : ¬ y0 ≤ r.val := by omega
        have e3 : ¬ y0 + 1 ≤ r.val := by omega
        simp [e1, e2, e3]
    constructor
    · rintro (⟨r, c, h1, h2⟩ | ⟨r, c, h1, h2⟩)
      · exact ⟨r, c, h1, by rw [(key r c).1, h2]; rfl⟩
      · rw [drawRow_cell] at h1
        have : ¬ y0 = r.val := fun e => (key r c).2 ⟨e, h2⟩
        simp [this] at h1
        exact ⟨r, c, h1, by rw [(key r c).1, h2]; simp⟩
    · rintro ⟨r, c, h1, h2⟩
      rw [(key r c).1, Bool.or_eq_true] at h2
      rcases h2 with h2 | h2
      · exact .inl ⟨r, c, h1, h2⟩
      · refine .inr ⟨r, c, ?_, h2⟩
        rw [drawRow_cell]
        have : ¬ y0 = r.val := fun e => (key r c).2 ⟨e, h2⟩
        simp [this, h1]

end Sys2Proof.Machine
end

