-- ==== Sys2Proof/Tests/Slice0.lean ====
section
/-! SUPPORT. The package's own tests. Expected results are those of spec/95_test_vectors.md (the vector's
number stands in the docstring), of the encodings of 30_encoding.md R84, or worked out by hand from a rule. The
last part holds one witness for the hypotheses of every statement that has some. -/

namespace Sys2Proof.Tests

open Sys2Proof.Machine Sys2Proof.Claims

/-! ## Well-formedness: the ill-formed terms are refused -/

theorem test_nop_with_cls_byte_refused : (Instr.nop 0x1E0).wellFormed = false := by decide

theorem test_nop_with_ret_byte_refused : (Instr.nop 0xFEE).wellFormed = false := by decide

theorem test_nop_check_cls : nopIsNotCls 0x0E0 = false ∧ nopIsNotRet 0x0E0 = true := by decide

theorem test_nop_check_ret : nopIsNotRet 0x0EE = false ∧ nopIsNotCls 0x0EE = true := by decide

theorem test_nop_other_byte_accepted : (Instr.nop 0x0E1).wellFormed = true := by decide

/-! ## Decoding: one word of every constructor, written out from R84 -/

theorem test_decode_family_0 :
    decodeTableWord 16 0x00E0 = some (.cls 0) ∧ decodeTableWord 16 0x0AE0 = some (.cls 0xA) ∧
    decodeTableWord 16 0x00EE = some (.ret 0) ∧ decodeTableWord 16 0x03EE = some (.ret 3) ∧
    decodeTableWord 16 0x0123 = some (.nop 0x123) ∧ decodeTableWord 16 0x0000 = some (.nop 0) := by
  decide

theorem test_decode_jumps :
    decodeTableWord 16 0x1ABC = some (.jp 0xABC) ∧ decodeTableWord 16 0x2300 = some (.call 0x300) ∧
    decodeTableWord 16 0xB3FE = some (.jpV0 0x3FE) := by decide

theorem test_decode_families_3_to_7 :
    decodeTableWord 16 0x332A = some (.seImm 3 0x2A) ∧
    decodeTableWord 16 0x4F01 = some (.sneImm 15 1) ∧
    decodeTableWord 16 0x5AB7 = some (.seReg 10 11 7) ∧
    decodeTableWord 16 0x6A02 = some (.ldImm 10 2) ∧
    decodeTableWord 16 0x7A02 = some (.addImm 10 2) := by decide

theorem test_decode_family_8 :
    decodeTableWord 16 0x8120 = some (.mov 1 2) ∧ decodeTableWord 16 0x8121 = some (.or 1 2) ∧
    decodeTableWord 16 0x8122 = some (.and 1 2) ∧ decodeTableWord 16 0x8123 = some (.xor 1 2) ∧
    decodeTableWord 16 0x8124 = some (.add 1 2) ∧ decodeTableWord 16 0x8125 = some (.sub 1 2) ∧
    decodeTableWord 16 0x8126 = some (.shr 1 2) ∧ decodeTableWord 16 0x8127 = some (.subn 1 2) ∧
    decodeTableWord 16 0x812E = some (.shl 1 2) := by decide

theorem test_decode_families_9_to_D :
    decodeTableWord 16 0x9125 = some (.sneReg 1 2 5) ∧ decodeTableWord 16 0xA2F0 = some (.ldI 0x2F0) ∧
    decodeTableWord 16 0xC30F = some (.rnd 3 0x0F) ∧ decodeTableWord 16 0xD125 = some (.drw 1 2 5) := by
  decide

theorem test_decode_family_E :
    decodeTableWord 16 0xE49E = some (.skp 4) ∧ decodeTableWord 16 0xE4A1 = some (.sknp 4) := by decide

theorem test_decode_family_F :
    decodeTableWord 16 0xF507 = some (.ldVxDt 5) ∧ decodeTableWord 16 0xF30A = some (.ldVxK 3) ∧
    decodeTableWord 16 0xF515 = some (.ldDtVx 5) ∧ decodeTableWord 16 0xF518 = some (.ldStVx 5) ∧
    decodeTableWord 16 0xF21E = some (.addI 2) ∧ decodeTableWord 16 0xF029 = some (.ldF 0) ∧
    decodeTableWord 16 0xF133 = some (.ldB 1) ∧ decodeTableWord 16 0xF255 = some (.stRegs 2) ∧
    decodeTableWord 16 0xF265 = some (.ldRegs 2) := by decide

/-- 30_encoding.md R87 to R89, R91: refused words, each with its reason. -/
theorem test_decode_refuses_by_name :
    decode [0x81, 0x28] = .error (.reservedFamily8 8) ∧
    decode [0x8F, 0xFF] = .error (.reservedFamily8 15) ∧
    decode [0xE1, 0x9F] = .error (.undefinedFamilyE 0x9F) ∧
    decode [0xF0, 0x75] = .error (.undefinedFamilyF 0x75) ∧
    decode [0x12] = .error .truncated ∧ decode [] = .error .truncated := by decide

/-- 20_memory.md R54: the byte at the lower address is the high one, and the rest of the bytes is left. -/
theorem test_decode_is_big_endian : decode [0x6A, 0x02, 0x8A] = .ok (.ldImm 10 2, [0x8A]) := by decide

/-! ## Single steps -/

/-- The reset state with registers set, `more` done to it, the word `w` at `pc`, and one STEP scheduled. -/
def start (w : Nat) (regs : List (Reg × Byte)) (more : State → State := id) (k : Bool := false)
    (r : Byte := 0) : State :=
  { (more (regs.foldl (fun s p => s.setReg p.1 p.2) State.reset)).withFetchWord 16 w with
    schedule := [.step k r] }

/-- What `f` reads in the next state, or none after a fault. -/
def reads {α : Type} (s : State) (f : State → α) : Option α :=
  match step s with
  | .next t => some (f t)
  | _ => none

/-- The record of the fault the next operation raises, if it raises one. -/
def faultOf (s : State) : Option FaultRecord :=
  match step s with
  | .fault f => some f.record
  | _ => none

/-- `Mem[a]` set. -/
def poke (a : Nat) (b : Byte) (s : State) : State := s.storeBytes a [b]

/-- The keys of a list down. -/
def keysDown (l : List (Fin 16)) (s : State) : State :=
  { s with kb := l.foldl (fun kb k => kb.set k.val true) (Vector.replicate 16 false) }

/-- One cell of the screen on. -/
def lit (r : Fin 32) (c : Fin 64) (s : State) : State :=
  { s with fb := s.fb.set r.val ((s.fb[r]).set c.val true) }

/-- V0.1. -/
theorem test_cls : reads (start 0x00E0 [] (lit 10 20)) (fun t => (t.cell 10 20, t.pc, t.result)) =
    some (false, 0x202, .stepOk true false) := by decide

/-- V0.5. -/
theorem test_ret :
    reads (start 0x03EE [] fun s => { s with sp := 2, stack := (s.stack.set 0 0x300).set 1 0x400 })
      (fun t => (t.sp, t.pc, t.stackAt 1)) = some (1, 0x402, 0x400) := by decide

/-- V0.6. -/
theorem test_ret_underflow :
    faultOf (start 0x00EE []) = some ⟨3, 0x200, some 0x00EE, none⟩ := by decide

/-- V0.9. -/
theorem test_nop : reads (start 0x0123 []) (fun t => (t.pc, t.result)) =
    some (0x202, .stepOk false false) := by decide

/-- V1.4. -/
theorem test_jp_odd : reads (start 0x1201 []) (·.pc) = some 0x201 := by decide

/-- V2.2. -/
theorem test_call_last_slot : reads (start 0x2300 [] fun s => { s with sp := 15 })
    (fun t => (t.sp, t.stackAt 15, t.pc)) = some (16, 0x200, 0x300) := by decide

/-- V2.3. -/
theorem test_call_overflow : faultOf (start 0x2300 [] fun s => { s with sp := 16 }) =
    some ⟨2, 0x200, some 0x2300, none⟩ := by decide

/-- V3.1, V3.2. -/
theorem test_se_imm : reads (start 0x3142 [(1, 0x42)]) (·.pc) = some 0x204 ∧
    reads (start 0x3142 [(1, 0x41)]) (·.pc) = some 0x202 := by decide

/-- V4.1, V4.2. -/
theorem test_sne_imm : reads (start 0x4142 [(1, 0x42)]) (·.pc) = some 0x202 ∧
    reads (start 0x4142 [(1, 0x41)]) (·.pc) = some 0x204 := by decide

/-- V5.2, V5.3. -/
theorem test_se_reg : reads (start 0x5120 [(1, 9), (2, 8)]) (·.pc) = some 0x202 ∧
    reads (start 0x512F [(1, 9), (2, 9)]) (·.pc) = some 0x204 := by decide

/-- V6.2. -/
theorem test_ld_imm : reads (start 0x6FFF [(15, 1)]) (fun t => (t.reg 15, t.pc)) =
    some (0xFF, 0x202) := by decide

/-- V7.2. -/
theorem test_add_imm_keeps_flag : reads (start 0x7A01 [(10, 0xFF), (15, 1)])
    (fun t => (t.reg 10, t.reg 15)) = some (0, 1) := by decide

/-- V8.0a. -/
theorem test_mov : reads (start 0x8120 [(1, 0x11), (2, 0x22)]) (fun t => (t.reg 1, t.reg 2)) =
    some (0x22, 0x22) := by decide

/-- V8.1a. -/
theorem test_or : reads (start 0x8121 [(1, 0xF0), (2, 0x0F), (15, 1)])
    (fun t => (t.reg 1, t.reg 15)) = some (0xFF, 1) := by decide

/-- V8.2a. -/
theorem test_and : reads (start 0x8122 [(1, 0xF0), (2, 0x3C), (15, 1)])
    (fun t => (t.reg 1, t.reg 15)) = some (0x30, 1) := by decide

/-- V8.3a. -/
theorem test_xor : reads (start 0x8123 [(1, 0xFF), (2, 0x0F), (15, 1)])
    (fun t => (t.reg 1, t.reg 15)) = some (0xF0, 1) := by decide

/-- V84.2, V84.5. -/
theorem test_add : reads (start 0x8124 [(1, 0xFF), (2, 1)]) (fun t => (t.reg 1, t.reg 15)) =
    some (0, 1) ∧
    reads (start 0x8124 [(1, 0xFE), (2, 1), (15, 1)]) (fun t => (t.reg 1, t.reg 15)) =
      some (0xFF, 0) := by decide

/-- V84.7, V84.9. -/
theorem test_add_flag_operand : reads (start 0x83F4 [(3, 0x10), (15, 1)])
    (fun t => (t.reg 3, t.reg 15)) = some (0x11, 0) ∧
    reads (start 0x8F14 [(15, 0xF0), (1, 0x20)]) (fun t => t.reg 15) = some 0x10 := by decide

/-- V85.2, V85.3. -/
theorem test_sub : reads (start 0x8125 [(1, 3), (2, 5)]) (fun t => (t.reg 1, t.reg 15)) =
    some (0xFE, 0) ∧
    reads (start 0x8125 [(1, 5), (2, 5), (15, 1)]) (fun t => (t.reg 1, t.reg 15)) = some (0, 0) := by
  decide

/-- V86.6, V86.7. -/
theorem test_shr : reads (start 0x8126 [(1, 6), (2, 0xFF)]) (fun t => (t.reg 1, t.reg 15)) =
    some (3, 0) ∧ reads (start 0x8F06 [(15, 3)]) (fun t => t.reg 15) = some 1 := by decide

/-- V87.1. -/
theorem test_subn_destination : reads (start 0x8127 [(1, 3), (2, 5)])
    (fun t => (t.reg 1, t.reg 2, t.reg 15)) = some (3, 2, 1) := by decide

/-- V87.7, V87.8. -/
theorem test_subn_flag_operand : reads (start 0x81F7 [(1, 1), (15, 5)]) (fun t => t.reg 15) =
    some 4 ∧
    reads (start 0x8F17 [(15, 2), (1, 7)]) (fun t => (t.reg 1, t.reg 15)) = some (5, 1) := by decide

/-- V8E.1, V8E.2. -/
theorem test_shl : reads (start 0x810E [(1, 0x81)]) (fun t => (t.reg 1, t.reg 15)) =
    some (2, 1) ∧
    reads (start 0x810E [(1, 0x40), (15, 1)]) (fun t => (t.reg 1, t.reg 15)) = some (0x80, 0) := by
  decide

/-- V9.3, V9.4. -/
theorem test_sne_reg : reads (start 0x9125 [(1, 7), (2, 8)]) (·.pc) = some 0x204 ∧
    reads (start 0x9440 [(4, 0x44)]) (·.pc) = some 0x202 := by decide

/-- VA.1. -/
theorem test_ld_i : reads (start 0xA2F0 []) (fun t => (t.i, t.pc)) = some (0x2F0, 0x202) := by decide

/-- VB.3, VB.4. -/
theorem test_jp_v0 : reads (start 0xBFFF [(0, 0xFF)]) (·.pc) = some 0x10FE ∧
    reads (start 0xB300 [(0, 1), (3, 0x55)]) (·.pc) = some 0x301 := by decide

/-- VC.1. -/
theorem test_rnd : reads (start 0xC30F [] id false 0xAB) (fun t => t.reg 3) = some 0x0B := by decide

/-- VD.2: clipped at the corner, colliding. -/
theorem test_drw_clips_and_collides :
    reads (start 0xD011 [(0, 0x3E), (1, 0x1F)] fun s =>
        lit 31 62 (lit 31 63 (poke 0x300 0xFF { s with i := 0x300 })))
      (fun t => (t.cell 31 62, t.cell 31 63, t.cell 31 0, t.cell 0 0, t.reg 15)) =
      some (false, false, false, false, 1) := by decide

/-- VD.3: rows go down, columns go right, bit 7 leftmost. -/
theorem test_drw_geometry :
    reads (start 0xD012 [] fun s => poke 0x300 0x80 (poke 0x301 0x40 { s with i := 0x300 }))
      (fun t => (t.cell 0 0, t.cell 1 1, t.cell 0 1, t.cell 1 0, t.reg 15, t.result)) =
      some (true, true, false, false, 0, .stepOk true false) := by decide

/-- VE.2, VE.5. -/
theorem test_skp : reads (start 0xE19E [(1, 0xA)] (keysDown [0xB])) (·.pc) = some 0x202 ∧
    reads (start 0xE19E [(1, 0xF)] (keysDown [0xF])) (·.pc) = some 0x204 := by decide

/-- VE.3, VE.4. -/
theorem test_sknp : reads (start 0xE1A1 [(1, 0xA)] (keysDown [0xA])) (·.pc) = some 0x202 ∧
    reads (start 0xE1A1 [(1, 0xA)] (keysDown [0xB])) (·.pc) = some 0x204 := by decide

/-- VE.6, VE.7. -/
theorem test_key_index : faultOf (start 0xE19E [(1, 0x10)] (keysDown [0])) =
    some ⟨6, 0x200, some 0xE19E, some 16⟩ ∧
    faultOf (start 0xE1A1 [(1, 0xFF)]) = some ⟨6, 0x200, some 0xE1A1, some 255⟩ := by decide

/-- VF07.1. -/
theorem test_ld_vx_dt : reads (start 0xF507 [] fun s => { s with dt := 0x3C })
    (fun t => (t.reg 5, t.dt)) = some (0x3C, 0x3C) := by decide

/-- VF0A.3. -/
theorem test_ld_vx_k : reads (start 0xF30A [] (keysDown [0xC, 7]) true)
    (fun t => (t.reg 3, t.pc, t.result)) = some (7, 0x202, .stepOk false false) := by decide

/-- VF0A.2, VF0A.4. -/
theorem test_ld_vx_k_waits : reads (start 0xF30A [] (keysDown [7, 0xC])) (fun t => (t.pc, t.result)) =
    some (0x200, .stepOk false true) ∧
    reads (start 0xF30A [] id true) (fun t => (t.pc, t.result)) =
      some (0x200, .stepOk false true) := by decide

/-- VF15.1. -/
theorem test_ld_dt_vx : reads (start 0xF515 [(5, 0x3C)]) (fun t => (t.dt, t.st)) =
    some (0x3C, 0) := by decide

/-- VF18.1. -/
theorem test_ld_st_vx : reads (start 0xF518 [(5, 4)]) (fun t => (t.dt, t.st)) = some (0, 4) := by
  decide

/-- VF1E.4, VF1E.5: the flag is a 16-bit carry, not a 12-bit one. -/
theorem test_add_i : reads (start 0xF21E [(2, 0xFF)] fun s => { s with i := 0xFF01 })
    (fun t => (t.i, t.reg 15)) = some (0, 1) ∧
    reads (start 0xF21E [(2, 1)] fun s => { s with i := 0x0FFF }) (fun t => (t.i, t.reg 15)) =
      some (0x1000, 0) := by decide

/-- VF29.5. -/
theorem test_ld_f : reads (start 0xF029 [(0, 0xFF)]) (·.i) = some 0x4FB := by decide

/-- VF33.9. -/
theorem test_ld_b : reads (start 0xF033 [(0, 0x7B)] fun s => { s with i := 0xFFD })
    (fun t => (t.readByte 0xFFD, t.readByte 0xFFE, t.readByte 0xFFF, t.i)) =
    some (some 1, some 2, some 3, 0xFFD) := by decide

/-- VF33.10. -/
theorem test_ld_b_out_of_range : faultOf (start 0xF033 [(0, 0x7B)] fun s => { s with i := 0xFFE }) =
    some ⟨5, 0x200, some 0xF033, some 4096⟩ := by decide

/-- VF55.1. -/
theorem test_st_regs : reads (start 0xF255 [(0, 0x11), (1, 0x22), (2, 0x33), (3, 0x44)] fun s =>
    { s with i := 0x400 })
    (fun t => (t.readByte 0x400, t.readByte 0x402, t.readByte 0x403)) =
    some (some 0x11, some 0x33, some 0) := by decide

/-- VF55.5. -/
theorem test_st_regs_out_of_range : faultOf (start 0xF155 [(0, 0xAA)] fun s => { s with i := 0xFFF }) =
    some ⟨5, 0x200, some 0xF155, some 4096⟩ := by decide

/-- VF65.3: the font is at address 0. -/
theorem test_ld_regs : reads (start 0xF465 [(5, 0x77)]) (fun t => (t.reg 0, t.reg 1, t.reg 4, t.reg 5)) =
    some (0xF0, 0x90, 0xF0, 0x77) := by decide

/-- VF65.4. -/
theorem test_ld_regs_out_of_range : faultOf (start 0xFF65 [] fun s => { s with i := 0xFF1 }) =
    some ⟨5, 0x200, some 0xFF65, some 4096⟩ := by decide

/-! ## Fetch, decode faults, host operations, parameters -/

/-- VX.1, VX.3. -/
theorem test_fetch_out_of_range :
    faultOf { State.reset with pc := 0xFFF, schedule := [.step false 0] } =
      some ⟨5, 0xFFF, none, some 4096⟩ ∧
    faultOf { State.reset with pc := 0x10FE, schedule := [.step false 0] } =
      some ⟨5, 0x10FE, none, some 4350⟩ := by decide

/-- VX.4. -/
theorem test_fetch_last_word : reads (start 0x6A01 [] fun s => { s with pc := 0xFFE })
    (fun t => (t.reg 10, t.pc)) = some (1, 0x1000) := by decide

/-- VE.11, V8R.1: decoding comes before execution. -/
theorem test_unknown_words : faultOf (start 0xE1A0 [(1, 0x10)]) =
    some ⟨4, 0x200, some 0xE1A0, none⟩ ∧
    faultOf (start 0x8128 [(1, 1), (2, 2)]) = some ⟨4, 0x200, some 0x8128, none⟩ := by decide

/-- A machine with `RESERVED_8_NOP = {8}`. -/
def reservedNopMachine : Config := { Config.default with reserved8Nop := [0x8] }

/-- After "Decode classification": with `RESERVED_8_NOP = {8}`, 8128 is a no-op and 8129 faults. -/
theorem test_reserved_nop :
    reads { (State.resetWith reservedNopMachine).withFetchWord 16 0x8128 with schedule := [.step false 0] }
      (fun t => (t.pc, t.result)) = some (0x202, .stepOk false false) ∧
    faultOf { (State.resetWith reservedNopMachine).withFetchWord 16 0x8129 with schedule := [.step false 0] } =
      some ⟨4, 0x200, some 0x8129, none⟩ := by decide

/-- VH.3. -/
theorem test_load : reads { State.reset with schedule := [.load [0x6A, 0x02, 0x8A, 0xA4]] }
    (fun t => (t.readByte 0x200, t.readByte 0x203, t.readByte 0x204, t.pc, t.result)) =
    some (some 0x6A, some 0xA4, some 0, 0x200, .loadOk) := by decide

/-- The machine whose `ENTRY_ADDR` is 0, after the host vectors: LOAD overwrites the font there. -/
theorem test_load_at_zero :
    reads { State.resetWith { Config.default with entryAddr := 0 } with schedule := [.load [0x6A, 0x02]] }
      (fun t => (t.readByte 0, t.readByte 1, t.readByte 2, t.pc)) =
      some (some 0x6A, some 0x02, some 0x90, 0) := by decide

/-- VH.6. -/
theorem test_load_oversized :
    reads { State.reset with schedule := [.load (List.replicate 2049 0xAA)] }
      (fun t => (t.readByte 0x200, t.result, t.result.code)) = some (some 0, .oversizedRom, 1) := by
  decide +kernel

/-- VH.9. -/
theorem test_set_keys :
    reads { State.reset with schedule := [.setKeys (keysDown [7, 0xC] State.reset).kb] }
      (fun t => (t.key 7, t.key 12, t.key 0)) = some (true, true, false) := by decide

/-- VH.12, VH.14. -/
theorem test_tick : reads { State.reset with dt := 3, st := 1, schedule := [.tick] }
    (fun t => (t.dt, t.st, t.pc)) = some (2, 0, 0x200) ∧
    reads { State.reset with schedule := [.tick] } (fun t => (t.dt, t.st)) = some (0, 0) := by decide

/-- VH.1: the loaded program is gone and the registers are 0. -/
theorem test_reset : reads { start 0x6A02 [(3, 7)] with schedule := [.reset] }
    (fun t => (t.reg 3, t.readByte 0x200, t.readByte 0, t.pc)) = some (0, some 0, some 0xF0, 0x200) := by
  decide

/-- 20_memory.md R52: with nothing loaded the first STEP runs the no-op of zeroed memory. -/
theorem test_first_step_of_empty_machine : reads State.reset (fun t => (t.pc, t.draws)) =
    some (0x202, 1) := by decide

/-- `withFetchWord` puts the word where the very next step runs it, past host operations. -/
theorem test_with_fetch_word :
    reads (State.reset.withFetchWord 16 0x6A02) (fun t => (t.reg 10, t.pc)) = some (2, 0x202) ∧
    reads ({ State.reset with schedule := [.tick, .reset, .step false 0] }.withFetchWord 16 0x6A02)
      (fun t => (t.reg 10, t.pc)) = some (2, 0x202) := by decide

/-! ## Witnesses: the hypotheses of every statement can be met -/

theorem test_witness_load : Memory.wf State.reset.cfg.font State.reset.mem ∧
    (List.replicate 2048 0xAA#8).length ≤ 2048 ∧ 2048 < (List.replicate 2049 0xAA#8).length := by
  exact ⟨Memory.wf_nil, Nat.le_of_eq List.length_replicate,
    Nat.lt_of_lt_of_eq (by decide : 2048 < 2049) List.length_replicate.symm⟩

theorem test_witness_decode_of_encode : (Instr.nop 0x0EF).wellFormed = true ∧
    (Instr.drw 15 15 15).wellFormed = true := by decide

theorem test_witness_encode_of_decode : decodeWord 0x81F7 = .ok (.subn 1 15) ∧
    decodeWord 0x0FE0 = .ok (.cls 15) := by decide

theorem test_witness_step_runs_decoded :
    (start 0x6A01 [] fun s => { s with pc := 0xFFE }).pc.toNat + 1 < 4096 ∧
    decode [(start 0x6A01 [] fun s => { s with pc := 0xFFE }).byteAt 0xFFE,
      (start 0x6A01 [] fun s => { s with pc := 0xFFE }).byteAt 0xFFF] =
      .ok (.ldImm 10 1, []) := by decide

theorem test_witness_fetch_out_of_range :
    4095 ≤ ({ State.reset with pc := 0xFFF } : State).pc.toNat ∧
    4095 ≤ ({ State.reset with pc := 0x1000 } : State).pc.toNat := by decide

theorem test_witness_unknown_word :
    WordAtPc (start 0xE19F []) 0xE19F ∧ IllegalWord (start 0xE19F []).cfg 0xE19F ∧
    WordAtPc (start 0xE19E []) 0xE19E ∧ ¬ IllegalWord (start 0xE19E []).cfg 0xE19E := by
  unfold WordAtPc IllegalWord
  decide

theorem test_witness_reserved_nibble :
    WordAtPc (start 0x8128 []) 0x8128 ∧ (0x8128 : Word).toNat / 4096 = 8 ∧
    (0x8128 : Word).toNat % 16 ∈ [0x8, 0x9, 0xA, 0xB, 0xC, 0xD, 0xF] ∧
    BitVec.ofNat 4 ((0x8128 : Word).toNat % 16) ∉ (start 0x8128 []).cfg.reserved8Nop := by
  unfold WordAtPc
  decide

theorem test_witness_reserved_nop :
    WordAtPc ((State.resetWith reservedNopMachine).withFetchWord 16 0x8128) 0x8128 ∧
    BitVec.ofNat 4 ((0x8128 : Word).toNat % 16) ∈
      ((State.resetWith reservedNopMachine).withFetchWord 16 0x8128).cfg.reserved8Nop := by
  unfold WordAtPc
  decide

theorem test_witness_ret : State.reset.sp.val = 0 ∧
    ({ State.reset with sp := 1 } : State).sp.val = (0 : Fin 16).val + 1 ∧
    ({ State.reset with sp := 16 } : State).sp.val = (15 : Fin 16).val + 1 := by decide

theorem test_witness_call : ({ State.reset with sp := 16 } : State).sp.val = 16 ∧
    State.reset.sp.val = (0 : Fin 16).val ∧
    ({ State.reset with sp := 15 } : State).sp.val = (15 : Fin 16).val := by decide

theorem test_witness_call_then_ret : ({ State.reset with sp := 15 } : State).sp.val < 16 := by decide

theorem test_witness_skip_on_key : ((start 0xE19E [(1, 15)]).reg 1).toNat = (15 : Fin 16).val ∧
    15 < ((start 0xE19E [(1, 16)]).reg 1).toNat := by decide

theorem test_witness_rnd : (executing State.reset false 0xAB []).inputs.rnd = 0xAB := rfl

theorem test_witness_flag_operand : (3 : Reg) ≠ 15 := by decide

theorem test_witness_draw :
    (0 : Nibble).toNat = 0 ∧
    ({ State.reset with i := 0xFFF } : State).i.toNat + (1 : Nibble).toNat - 1 < 4096 ∧
    1 ≤ (2 : Nibble).toNat ∧
    4096 ≤ ({ State.reset with i := 0xFFF } : State).i.toNat + (2 : Nibble).toNat - 1 := by decide

/-- A lit pixel on a lit cell, and one on a dark cell. -/
theorem test_witness_draw_collision :
    SpritePixel (start 0xD015 []) 0 1 5 0 0 = true ∧ (lit 0 0 (start 0xD015 [])).cell 0 0 = true ∧
    (start 0xD015 []).cell 0 0 = false := by decide

theorem test_witness_draw_twice : (0 : Reg) ≠ 15 ∧ (1 : Reg) ≠ 15 ∧
    (start 0xD015 []).i.toNat + (5 : Nibble).toNat - 1 < 4096 := by decide

theorem test_witness_key_delivered :
    (executing (keysDown [7, 12] State.reset) true 0 []).inputs.keyPressed = true ∧
    (executing (keysDown [7, 12] State.reset) true 0 []).key 7 = true ∧
    ∀ j : Fin 16, j < 7 → (executing (keysDown [7, 12] State.reset) true 0 []).key j = false := by decide

theorem test_witness_key_delivered_at_ends :
    (keysDown [0] State.reset).key 0 = true ∧ (keysDown [15] State.reset).key 15 = true ∧
    ∀ j : Fin 16, j < 15 → (keysDown [15] State.reset).key j = false := by decide

theorem test_witness_key_waits : State.reset.inputs.keyPressed = false ∧
    (executing State.reset true 0 []).inputs.keyPressed = true ∧
    ∀ k, (executing State.reset true 0 []).key k = false := by decide

theorem test_witness_bcd :
    Memory.wf ({ State.reset with i := 0xFFD } : State).cfg.font ({ State.reset with i := 0xFFD } : State).mem ∧
    ({ State.reset with i := 0xFFD } : State).i.toNat + 2 < 4096 ∧
    4096 ≤ ({ State.reset with i := 0xFFE } : State).i.toNat + 2 :=
  ⟨Memory.wf_nil, by decide, by decide⟩

theorem test_witness_dump_and_load :
    Memory.wf ({ State.reset with i := 0xFF0 } : State).cfg.font ({ State.reset with i := 0xFF0 } : State).mem ∧
    ({ State.reset with i := 0xFF0 } : State).i.toNat + (15 : Reg).val < 4096 ∧
    4096 ≤ ({ State.reset with i := 0xFF1 } : State).i.toNat + (15 : Reg).val :=
  ⟨Memory.wf_nil, by decide, by decide⟩

theorem test_witness_stored_bytes_fetched :
    Memory.wf ({ State.reset with i := 0x208 } : State).cfg.font ({ State.reset with i := 0x208 } : State).mem ∧
    1 ≤ (1 : Reg).val ∧ ({ State.reset with i := 0x208 } : State).i.toNat + (1 : Reg).val < 4096 :=
  ⟨Memory.wf_nil, by decide, by decide⟩

theorem test_witness_canonical_memory :
    Memory.wf defaultFont ([(0, 0x00), (0x300, 0x11)] : Memory) ∧
    ¬ Memory.wf defaultFont ([(0x300, 0x00)] : Memory) := by decide

theorem test_witness_execute_faults :
    exec (.ret 0) State.reset = .fault (.stackUnderflow 0x200 0x00EE) ∧
    executeFault (.ret 0) State.reset = some (.stackUnderflow 0x200 0x00EE) := ⟨rfl, rfl⟩

/-- For the statements about an instruction that answers a next state. -/
theorem test_witness_exec_next :
    exec (.add 1 2) State.reset = .next (State.reset.writeFlagged false 1 0).advance ∧
    ¬ IsDestination 3 (.add 1 2) ∧ ¬ ((3 : Reg) = 15 ∧ WritesFlag (.add 1 2)) ∧
    ¬ IsDestination 15 (.mov 1 2) ∧ ¬ ((15 : Reg) = 15 ∧ WritesFlag (.mov 1 2)) :=
  ⟨rfl, (by decide : ¬ (3 : Reg) = 1), fun h => absurd h.1 (by decide), (by decide : ¬ (15 : Reg) = 1),
    fun h => h.2⟩

theorem test_witness_not_a_reader : (∀ x, Instr.rnd 3 0x0F ≠ .ldVxK x) ∧
    (∀ x nn, Instr.ldVxK 3 ≠ .rnd x nn) ∧ ∀ x, Instr.ldVxDt 3 ≠ .ldStVx x :=
  ⟨fun _ h => (nomatch h), fun _ _ h => (nomatch h), fun _ h => (nomatch h)⟩

theorem test_witness_fault_repeats :
    step (scheduled State.reset (.step false 0) []) =
      .next { executing State.reset false 0 [] with pc := 0x202, result := .stepOk false false } ∧
    step (scheduled { State.reset with pc := 0xFFF } (.step false 0) []) =
      .fault (.memoryOutOfRange 0xFFF none 4096) := ⟨rfl, rfl⟩

theorem test_witness_ret_ignored_bits :
    exec (.ret 3) { State.reset with sp := 1 } =
      .next { State.reset with pc := 2, result := .stepOk false false } := rfl

/-- The invariant holds right after reset. -/
theorem test_reset_inv : State.reset.Inv := by
  refine ⟨Memory.wf_nil, by decide, ?_⟩
  intro k hk
  exact absurd hk (by simp [State.reset, State.resetWith])

/-- The invariant with `pc` at its largest value and a return address at its largest value. -/
theorem test_inv_at_bounds :
    State.Inv { State.reset with pc := 0x10FE, sp := 1, stack := State.reset.stack.set 0 4094 } := by
  decide

theorem test_witness_operation_next :
    step (scheduled State.reset .tick []) = .next State.reset.afterTick ∧
    (∀ keys rest, (scheduled State.reset .tick []).schedule ≠ .setKeys keys :: rest) ∧
    ∀ rest, (scheduled State.reset .tick []).schedule ≠ .reset :: rest := by
  refine ⟨rfl, ?_, ?_⟩
  · intro keys rest h
    cases h
  · intro rest h
    cases h

/-- 70_reset_and_hazards.md R211: `JP 200` at 0x200. -/
theorem test_witness_ended : (start 0x1200 []).Ended := by
  unfold State.Ended
  decide

/-- A run of two operations that no fault ends. -/
theorem test_safe_for : SafeFor 2 { State.reset with schedule := [.tick, .step false 0] } :=
  ⟨_, rfl⟩

end Sys2Proof.Tests
end

section
/-! PROOFS. An instruction leaves every part of the state outside its row of the "written by" column as it was, field
by field (spec/10_state.md R20); from that, which operation of the host can change the parameters (00_scope.md R6) and
which the key flags (10_state.md R33). -/

namespace Sys2Proof.Machine

/-! ## Each update keeps the parts it does not write

In the form "a part that was as in `s` before the update still is", so that the updates of one instruction chain. -/

theorem State.same_refl (s : State) (p : Part) : s.same s p := by
  cases p <;> simp [State.same]

section
variable {s u : State} {p : Part}

theorem State.same.setReg (h : s.same u p) (hp : p ≠ .regs) (r : Reg) (b : Byte) :
    s.same (u.setReg r b) p := by
  cases p <;> simp_all [State.same]

theorem State.same.writeFlagged (h : s.same u p) (hp : p ≠ .regs) (flag : Bool) (r : Reg) (b : Byte) :
    s.same (u.writeFlagged flag r b) p :=
  (h.setReg hp vf (flagByte flag)).setReg hp r b

theorem State.same.loadRegs (h : s.same u p) (hp : p ≠ .regs) (k : Nat) (bs : List Byte) :
    s.same (u.loadRegs k bs) p := by
  cases p <;> simp_all [State.same]

theorem State.same.setIndex (h : s.same u p) (hp : p ≠ .index) (w : Word) :
    s.same { u with i := w } p := by
  cases p <;> simp_all [State.same]

theorem State.same.setScreen (h : s.same u p) (hp : p ≠ .screen) (fb : Screen) :
    s.same { u with fb := fb } p := by
  cases p <;> simp_all [State.same]

theorem State.same.setDelay (h : s.same u p) (hp : p ≠ .delay) (b : Byte) :
    s.same { u with dt := b } p := by
  cases p <;> simp_all [State.same]

theorem State.same.setSound (h : s.same u p) (hp : p ≠ .sound) (b : Byte) :
    s.same { u with st := b } p := by
  cases p <;> simp_all [State.same]

theorem State.same.setStack (h : s.same u p) (hp : p ≠ .stack) (stack : Vector Word 16) (sp : Fin 17) :
    s.same { u with stack := stack, sp := sp } p := by
  cases p <;> simp_all [State.same]

theorem State.same.storeBytes (h : s.same u p) (hp : p ≠ .memory) (a : Nat) (bs : List Byte) :
    s.same (u.storeBytes a bs) p := by
  cases p <;> simp_all [State.same]

theorem State.same.wait (h : s.same u p) (hp : p ≠ .result) : s.same u.wait p := by
  cases p <;> simp_all [State.same, State.wait]

/-- Completing: the form behind `advance`, `advanceRedraw` and `skipIf`. -/
theorem State.same.finish (h : s.same u p) (hpc : p ≠ .pc) (hresult : p ≠ .result) (q : Word)
    (redraw : Bool) : s.same (u.finish q redraw) p := by
  cases p <;> simp_all [State.same]

end

/-! ## Shared operations that answer a next state -/

theorem State.skipOnKey_eq_next {s t : State} {i : Instr} {x : Reg} {level : Bool}
    (h : s.skipOnKey i x level = .next t) : ∃ c, t = s.skipIf c := by
  by_cases hk : (s.reg x).toNat < nKeys
  · rw [State.skipOnKey_ok s i x level hk] at h
    exact ⟨_, (Host.Outcome.next.inj h).symm⟩
  · rw [State.skipOnKey_fault s i x level hk] at h
    cases h

theorem execRet_eq_next {z : Nibble} {s t : State} (h : execRet z s = .next t) :
    ∃ ra u, s.pop = some (ra, u) ∧ t = u.finish (ra + 2#16) false := by
  unfold execRet at h
  split at h
  · next ra u hpop => exact ⟨ra, u, hpop, (Host.Outcome.next.inj h).symm⟩
  · cases h

theorem execCall_eq_next {nnn : Addr12} {s t : State} (h : execCall nnn s = .next t) :
    ∃ u, s.push s.pc = some u ∧ t = u.finish (zext12 nnn) false := by
  unfold execCall at h
  split at h
  · next u hpush => exact ⟨u, hpush, (Host.Outcome.next.inj h).symm⟩
  · cases h

theorem execLdVxK_eq_next {x : Reg} {s t : State} (h : execLdVxK x s = .next t) :
    (∃ b, t = (s.setReg x b).advance) ∨ t = s.wait := by
  unfold execLdVxK at h
  obtain rfl := Host.Outcome.next.inj h
  split
  · next b _ =>
    split
    · exact .inl ⟨b, rfl⟩
    · exact .inr rfl
  · exact .inr rfl

end Sys2Proof.Machine

namespace Sys2Proof.Claims

open Sys2Proof.Machine

/-! ## The frame of an instruction, of a STEP and of an operation -/

/-- 10_state.md R20, column "written by", for the fields themselves. -/
theorem exec_same {i : Instr} {s t : State} {p : Part} (h : exec i s = .next t)
    (hp : p ∉ .pc :: .result :: writtenBy i) : s.same t p := by
  obtain ⟨hpc, hresult, hw⟩ : p ≠ .pc ∧ p ≠ .result ∧ p ∉ writtenBy i := by simpa using hp
  have hs := State.same_refl s p
  cases i
  case nop | jp | jpV0 | seImm | sneImm | seReg | sneReg =>
    obtain rfl := Host.Outcome.next.inj h
    exact hs.finish hpc hresult _ _
  case skp | sknp =>
    obtain ⟨c, rfl⟩ := State.skipOnKey_eq_next h
    exact hs.finish hpc hresult _ _
  case ret =>
    obtain ⟨ra, u, hpop, rfl⟩ := execRet_eq_next h
    obtain ⟨-, -, rfl⟩ := State.pop_eq_some hpop
    exact (hs.setStack (by simpa [writtenBy] using hw) _ _).finish hpc hresult _ _
  case call =>
    obtain ⟨u, hpush, rfl⟩ := execCall_eq_next h
    obtain ⟨-, rfl⟩ := State.push_eq_some hpush
    exact (hs.setStack (by simpa [writtenBy] using hw) _ _).finish hpc hresult _ _
  case ldImm | addImm | mov | or | and | xor | rnd | ldVxDt =>
    obtain rfl := Host.Outcome.next.inj h
    exact (hs.setReg (by simpa [writtenBy] using hw) _ _).finish hpc hresult _ _
  case add | sub | shr | subn | shl =>
    obtain rfl := Host.Outcome.next.inj h
    exact (hs.writeFlagged (by simpa [writtenBy] using hw) _ _ _).finish hpc hresult _ _
  case ldVxK =>
    obtain ⟨b, rfl⟩ | rfl := execLdVxK_eq_next h
    · exact (hs.setReg (by simpa [writtenBy] using hw) _ _).finish hpc hresult _ _
    · exact hs.wait hresult
  case ldRegs =>
    obtain ⟨rfl, -⟩ := accessing_eq_next h
    exact (hs.loadRegs (by simpa [writtenBy] using hw) _ _).finish hpc hresult _ _
  case ldI | ldF =>
    obtain rfl := Host.Outcome.next.inj h
    exact (hs.setIndex (by simpa [writtenBy] using hw) _).finish hpc hresult _ _
  case addI =>
    obtain ⟨hindex, hregs⟩ : p ≠ .index ∧ p ≠ .regs := by simpa [writtenBy] using hw
    obtain rfl := Host.Outcome.next.inj h
    exact ((hs.setIndex hindex _).setReg hregs _ _).finish hpc hresult _ _
  case cls =>
    obtain rfl := Host.Outcome.next.inj h
    exact (hs.setScreen (by simpa [writtenBy] using hw) _).finish hpc hresult _ _
  case drw =>
    obtain ⟨hscreen, hregs⟩ : p ≠ .screen ∧ p ≠ .regs := by simpa [writtenBy] using hw
    obtain ⟨rfl, -⟩ := accessing_eq_next h
    exact ((hs.setScreen hscreen _).setReg hregs _ _).finish hpc hresult _ _
  case ldDtVx =>
    obtain rfl := Host.Outcome.next.inj h
    exact (hs.setDelay (by simpa [writtenBy] using hw) _).finish hpc hresult _ _
  case ldStVx =>
    obtain rfl := Host.Outcome.next.inj h
    exact (hs.setSound (by simpa [writtenBy] using hw) _).finish hpc hresult _ _
  case ldB | stRegs =>
    obtain ⟨rfl, -⟩ := accessing_eq_next h
    exact (hs.storeBytes (by simpa [writtenBy] using hw) _ _).finish hpc hresult _ _

/-- The parts that are the host's (10_state.md R33, R38, R44) or fixed (00_scope.md R6). -/
def hostParts : List Part := [.config, .keys, .inputs, .schedule, .draws]

theorem hostParts_notMem_written {p : Part} (hp : p ∈ hostParts) (i : Instr) :
    p ∉ .pc :: .result :: writtenBy i := by
  simp only [hostParts, List.mem_cons, List.not_mem_nil, or_false] at hp
  obtain rfl | rfl | rfl | rfl | rfl := hp <;> cases i <;> simp [writtenBy]

/-- The frame of a cycle, the no-op of a reserved nibble included (42_family_8_alu.md R130). -/
theorem cycle_same_hostParts {s t : State} {p : Part} (h : s.cycle = .next t) (hp : p ∈ hostParts) :
    s.same t p := by
  obtain ⟨-, ⟨i, hexec⟩ | rfl⟩ := State.cycle_eq_next h
  · exact exec_same hexec (hostParts_notMem_written hp i)
  · have hpc : p ≠ .pc := by rintro rfl; simp [hostParts] at hp
    have hresult : p ≠ .result := by rintro rfl; simp [hostParts] at hp
    exact (State.same_refl s p).finish hpc hresult _ _

theorem engineStep_cfg {s t : State} {inp : Inputs} (h : s.engineStep inp = .next t) : t.cfg = s.cfg :=
  cycle_same_hostParts (s := { s with inputs := inp }) (p := .config) h (by simp [hostParts])

theorem engineStep_kb {s t : State} {inp : Inputs} (h : s.engineStep inp = .next t) : t.kb = s.kb :=
  cycle_same_hostParts (s := { s with inputs := inp }) (p := .keys) h (by simp [hostParts])

@[simp] theorem afterLoad_cfg (s : State) (bytes : List Byte) : (s.afterLoad bytes).cfg = s.cfg := by
  unfold State.afterLoad
  split <;> rfl

@[simp] theorem afterLoad_kb (s : State) (bytes : List Byte) : (s.afterLoad bytes).kb = s.kb := by
  unfold State.afterLoad
  split <;> rfl

/-- 00_scope.md R6: each of the five operations keeps the parameters. -/
theorem perform_cfg {s t : State} {op : HostOp} (h : s.perform op = .next t) : t.cfg = s.cfg := by
  cases op
  case step => exact engineStep_cfg h
  case load bytes =>
    obtain rfl := Host.Outcome.next.inj h
    exact afterLoad_cfg s bytes
  case reset | setKeys | tick =>
    obtain rfl := Host.Outcome.next.inj h
    rfl

/-- 10_state.md R33: the three operations other than SET_KEYS and RESET keep the key flags. -/
theorem perform_kb {s t : State} {op : HostOp} (h : s.perform op = .next t)
    (hset : ∀ keys, op ≠ .setKeys keys) (hreset : op ≠ .reset) : t.kb = s.kb := by
  cases op
  case step => exact engineStep_kb h
  case load bytes =>
    obtain rfl := Host.Outcome.next.inj h
    exact afterLoad_kb s bytes
  case tick =>
    obtain rfl := Host.Outcome.next.inj h
    rfl
  case setKeys keys => exact absurd rfl (hset keys)
  case reset => exact absurd rfl hreset

theorem step_cfg {s t : State} (h : step s = .next t) : t.cfg = s.cfg := by
  cases hsch : s.schedule with
  | nil =>
    rw [step_nil s hsch] at h
    exact (engineStep_cfg h :)
  | cons op rest =>
    rw [step_cons s op rest hsch] at h
    exact (perform_cfg h :)

theorem step_kb {s t : State} (h : step s = .next t)
    (hset : ∀ keys rest, s.schedule ≠ .setKeys keys :: rest) (hreset : ∀ rest, s.schedule ≠ .reset :: rest) :
    t.kb = s.kb := by
  cases hsch : s.schedule with
  | nil =>
    rw [step_nil s hsch] at h
    exact (engineStep_kb h :)
  | cons op rest =>
    rw [step_cons s op rest hsch] at h
    have hnotSet : ∀ keys, op ≠ .setKeys keys := fun keys e => hset keys rest (e ▸ hsch)
    have hnotReset : op ≠ .reset := fun e => hreset rest (e ▸ hsch)
    exact (perform_kb h hnotSet hnotReset :)

/-- Settles O54: the parameters by `step_cfg`, the key flags by `step_kb`, both from the frame of an instruction. -/
theorem parametersFixedAndKeysHostWritten : Obligations.ParametersFixedAndKeysHostWritten := by
  unfold Obligations.ParametersFixedAndKeysHostWritten
  intro s t h
  refine ⟨step_cfg h, fun hset hreset k => ?_⟩
  rw [State.key, State.key, step_kb h hset hreset]

end Sys2Proof.Claims
end

section
/-! PROOFS. How `pc` and the outputs of a STEP follow from the instruction (spec/10_state.md R26, R37), and the bounds
that every operation keeps (10_state.md R25, R42). -/

namespace Sys2Proof.Claims

open Sys2Proof.Machine

/-! ## What the shared operations answer, in the terms of the statements -/

theorem skipOnKey_eq_next_keyDown {s t : State} {i : Instr} {x : Reg} {level : Bool}
    (h : s.skipOnKey i x level = .next t) :
    t = s.skipIf (s.key (Fin.ofNat 16 (s.reg x).toNat) == level) := by
  by_cases hk : (s.reg x).toNat < nKeys
  · rw [State.skipOnKey_ok s i x level hk] at h
    have hkey : (⟨(s.reg x).toNat, hk⟩ : Fin 16) = Fin.ofNat 16 (s.reg x).toNat :=
      Fin.ext (Nat.mod_eq_of_lt hk).symm
    rw [← hkey]
    exact (Host.Outcome.next.inj h).symm
  · rw [State.skipOnKey_fault s i x level hk] at h
    cases h

/-- 40_family_0_1_2.md R101: a RET that completes had an entry in use, the one it returns to. -/
theorem execRet_eq_next_stackAt {z : Nibble} {s t : State} (h : execRet z s = .next t) :
    s.sp.val ≠ 0 ∧ t.sp.val = s.sp.val - 1 ∧ t.stack = s.stack ∧ t.result = .stepOk false false ∧
      t.pc = s.stackAt (Fin.ofNat 16 (s.sp.val - 1)) + 2#16 := by
  obtain ⟨ra, u, hpop, rfl⟩ := execRet_eq_next h
  obtain ⟨hsp, rfl, rfl⟩ := State.pop_eq_some hpop
  have hlt : s.sp.val - 1 < 16 := by omega
  have hentry : (⟨s.sp.val - 1, hlt⟩ : Fin 16) = Fin.ofNat 16 (s.sp.val - 1) :=
    Fin.ext (Nat.mod_eq_of_lt hlt).symm
  exact ⟨hsp, rfl, rfl, rfl, by rw [State.finish_pc, hentry]⟩

/-- 40_family_0_1_2.md R104: a CALL that completes has put its own address above the entries in use. -/
theorem execCall_eq_next_stackAt {nnn : Addr12} {s t : State} (h : execCall nnn s = .next t) :
    t.sp.val = s.sp.val + 1 ∧ t.result = .stepOk false false ∧ t.pc = zext12 nnn ∧
      ∀ k, t.stackAt k = if k.val = s.sp.val then s.pc else s.stackAt k := by
  obtain ⟨u, hpush, rfl⟩ := execCall_eq_next h
  obtain ⟨hsp, rfl⟩ := State.push_eq_some hpush
  refine ⟨rfl, rfl, rfl, fun k => ?_⟩
  simp only [State.stackAt, State.finish_stack, Fin.getElem_fin, Vector.getElem_set, eq_comm]

/-- 45_family_F.md R161: the key wait completes when a press is reported and some key is down. -/
abbrev KeyDelivered (s : State) : Prop := s.inputs.keyPressed = true ∧ ∃ k, s.key k = true

theorem firstKey_eq_none_iff (s : State) : firstKey s.kb = none ↔ ¬ ∃ k, s.key k = true := by
  simp only [firstKey, Option.map_eq_none_iff, List.findIdx?_eq_none_iff, Vector.mem_toList_iff,
    Vector.mem_iff_getElem, State.key, id]
  constructor
  · rintro h ⟨k, hk⟩
    exact absurd (h _ ⟨k.val, k.isLt, rfl⟩) (by simpa using hk)
  · rintro h b ⟨k, hlt, rfl⟩
    exact Bool.eq_false_iff.mpr fun hk => h ⟨⟨k, hlt⟩, hk⟩

theorem execLdVxK_eq_next_delivered {x : Reg} {s t : State} (h : execLdVxK x s = .next t) :
    (KeyDelivered s ∧ ∃ b, t = (s.setReg x b).advance) ∨ (¬ KeyDelivered s ∧ t = s.wait) := by
  unfold execLdVxK at h
  obtain rfl := Host.Outcome.next.inj h
  cases hkey : firstKey s.kb with
  | none => exact .inr ⟨fun hd => (firstKey_eq_none_iff s).mp hkey hd.2, rfl⟩
  | some b =>
    have hdown : ∃ k, s.key k = true := by
      refine Classical.byContradiction fun hno => ?_
      rw [(firstKey_eq_none_iff s).mpr hno] at hkey
      cases hkey
    by_cases hp : s.inputs.keyPressed = true
    · exact .inl ⟨⟨hp, hdown⟩, b, if_pos hp⟩
    · exact .inr ⟨fun hd => hp hd.1, if_neg hp⟩

/-! ## Where `pc` goes -/

theorem zext12_toNat (a : Addr12) : (zext12 a).toNat = a.toNat := by
  have := a.isLt
  simp only [zext12, BitVec.toNat_setWidth]
  omega

theorem zext8_toNat (b : Byte) : (zext8 b).toNat = b.toNat := by
  have := b.isLt
  simp only [zext8, BitVec.toNat_setWidth]
  omega

/-- 43_family_9_to_D.md R142: the sum of the indexed jump never wraps. -/
theorem indexedTarget_toNat (b : Byte) (a : Addr12) : (indexedTarget b a).toNat = b.toNat + a.toNat := by
  have := b.isLt
  have := a.isLt
  rw [indexedTarget, BitVec.toNat_add, zext8_toNat, zext12_toNat]
  omega

theorem skipIf_pc_toNat (s : State) (c : Bool) :
    (s.skipIf c).pc.toNat = (s.pc.toNat + if c then 4 else 2) % 65536 := by
  cases c
  · exact pc_add_two s.pc
  · exact pc_add_four s.pc

theorem exec_pc {i : Instr} {s t : State} (h : exec i s = .next t) : t.pc.toNat = pcAfter i s := by
  cases i
  case jp nnn =>
    obtain rfl := Host.Outcome.next.inj h
    exact zext12_toNat nnn
  case call nnn =>
    obtain ⟨-, -, hpc, -⟩ := execCall_eq_next_stackAt h
    rw [hpc]
    exact zext12_toNat nnn
  case jpV0 nnn =>
    obtain rfl := Host.Outcome.next.inj h
    exact indexedTarget_toNat (s.reg 0) nnn
  case ret =>
    obtain ⟨-, -, -, -, hpc⟩ := execRet_eq_next_stackAt h
    rw [hpc]
    exact pc_add_two _
  case seImm | sneImm | seReg | sneReg =>
    obtain rfl := Host.Outcome.next.inj h
    rw [skipIf_pc_toNat]
    simp [pcAfter]
  case skp | sknp =>
    obtain rfl := skipOnKey_eq_next_keyDown h
    rw [skipIf_pc_toNat]
    simp [pcAfter]
  case ldVxK =>
    obtain ⟨hd, b, rfl⟩ | ⟨hd, rfl⟩ := execLdVxK_eq_next_delivered h
    · exact (pc_add_two s.pc).trans (if_pos hd).symm
    · exact (if_neg hd).symm
  case drw | ldB | stRegs =>
    obtain ⟨rfl, -⟩ := accessing_eq_next h
    exact pc_add_two s.pc
  case ldRegs =>
    obtain ⟨rfl, -⟩ := accessing_eq_next h
    rw [State.advance_eq, State.finish_pc, State.loadRegs_pc]
    exact pc_add_two s.pc
  all_goals
    obtain rfl := Host.Outcome.next.inj h
    exact pc_add_two s.pc

/-- Settles O43: instruction by instruction, `exec_pc`. -/
theorem pcMovesAsListed : Obligations.PcMovesAsListed := by
  unfold Obligations.PcMovesAsListed
  exact fun _ _ _ => exec_pc

/-! ## The bounds -/

/-- 10_state.md R25: "the largest value any instruction can give `pc`", for an instruction that was fetched (so that
`pc` was at most 4094) and a return to an address of at most 4094. -/
theorem pcAfter_le {i : Instr} {s : State} (hpc : s.pc.toNat ≤ 4094)
    (hret : ∀ z, i = .ret z → (s.stackAt (Fin.ofNat 16 (s.sp.val - 1))).toNat ≤ 4094) :
    pcAfter i s ≤ 0x10FE := by
  have hskip : ∀ c : Bool, (s.pc.toNat + if c then 4 else 2) % 65536 ≤ 0x10FE := by
    rintro (_ | _) <;> simp only [reduceIte, Bool.false_eq_true] <;> omega
  cases i
  case jp nnn | call nnn =>
    have := nnn.isLt
    simp only [pcAfter]
    omega
  case jpV0 nnn =>
    have := nnn.isLt
    have := (s.reg 0).isLt
    simp only [pcAfter]
    omega
  case ret z =>
    have := hret z rfl
    simp only [pcAfter]
    omega
  case ldVxK =>
    simp only [pcAfter]
    split <;> omega
  case seImm | sneImm | seReg | sneReg | skp | sknp => exact hskip _
  all_goals exact hskip false

/-- The canonical form of memory through an instruction: LD B and LD [I] store inside the memory, the others keep it. -/
theorem exec_wf {i : Instr} {s t : State} (h : exec i s = .next t) (hwf : Memory.wf s.cfg.font s.mem) :
    Memory.wf t.cfg.font t.mem := by
  by_cases hw : Part.memory ∈ writtenBy i
  · cases i
    case ldB x =>
      obtain ⟨rfl, hin⟩ := accessing_eq_next h
      exact State.wf_storeBytes s hwf _ _ (by simpa [bcdDigits] using hin)
    case stRegs x =>
      obtain ⟨rfl, hin⟩ := accessing_eq_next h
      have hlen : (s.regsUpTo x).length = x.val + 1 := by
        have := x.isLt
        simp only [State.regsUpTo, List.length_take, Vector.length_toList]
        omega
      exact State.wf_storeBytes s hwf _ _ (by simpa [hlen] using hin)
    all_goals simp [writtenBy] at hw
  · obtain ⟨hmem, hcfg⟩ : s.same t .memory := exec_same h (by simpa using hw)
    rw [hmem, hcfg]
    exact hwf

/-- 10_state.md R42: a CALL pushes its own address, which was fetched from; no other instruction adds an entry. -/
theorem exec_stack_le {i : Instr} {s t : State} (h : exec i s = .next t) (hpc : s.pc.toNat ≤ 4094)
    (hstack : ∀ k : Fin 16, k.val < s.sp.val → (s.stackAt k).toNat ≤ 4094) :
    ∀ k : Fin 16, k.val < t.sp.val → (t.stackAt k).toNat ≤ 4094 := by
  intro k hk
  by_cases hw : Part.stack ∈ writtenBy i
  · cases i
    case ret =>
      obtain ⟨-, hsp, hst, -⟩ := execRet_eq_next_stackAt h
      rw [State.stackAt, hst]
      exact hstack k (by omega)
    case call =>
      obtain ⟨hsp, -, -, hst⟩ := execCall_eq_next_stackAt h
      rw [hst]
      split
      · exact hpc
      · exact hstack k (by omega)
    all_goals simp [writtenBy] at hw
  · obtain ⟨hsp, hst⟩ : s.same t .stack := exec_same h (by simpa using hw)
    rw [State.stackAt, hst]
    exact hstack k (hsp ▸ hk)

theorem exec_inv {i : Instr} {s t : State} (h : exec i s = .next t) (hpc : s.pc.toNat ≤ 4094)
    (hinv : s.Inv) : t.Inv := by
  obtain ⟨hwf, -, hstack⟩ := hinv
  refine ⟨exec_wf h hwf, ?_, exec_stack_le h hpc hstack⟩
  rw [exec_pc h]
  refine pcAfter_le hpc ?_
  rintro z rfl
  obtain ⟨hsp, -⟩ := execRet_eq_next_stackAt h
  refine hstack _ ?_
  have := s.sp.isLt
  simp only [Fin.ofNat]
  omega

/-- A cycle fetched its word, so that `pc` was at most 4094. -/
theorem cycle_inv {s t : State} (h : s.cycle = .next t) (hinv : s.Inv) : t.Inv := by
  obtain ⟨hfetch, hcase⟩ := State.cycle_eq_next h
  have hpc : s.pc.toNat ≤ 4094 := by
    simp only [memSize] at hfetch
    omega
  obtain ⟨i, hexec⟩ | rfl := hcase
  · exact exec_inv hexec hpc hinv
  · obtain ⟨hwf, -, hstack⟩ := hinv
    refine ⟨hwf, ?_, hstack⟩
    rw [State.advance_eq, State.finish_pc, pc_add_two]
    omega

theorem engineStep_inv {s t : State} {inp : Inputs} (h : s.engineStep inp = .next t) (hinv : s.Inv) :
    t.Inv :=
  cycle_inv (s := { s with inputs := inp }) h hinv

theorem resetWith_inv (cfg : Config) : (State.resetWith cfg).Inv := by
  have hentry := cfg.entryAddr.isLt
  refine ⟨Memory.wf_nil, ?_, fun k hk => absurd hk (Nat.not_lt_zero _)⟩
  simp only [State.resetWith, BitVec.toNat_ofNat]
  omega

theorem afterLoad_inv {s : State} (hinv : s.Inv) (bytes : List Byte) : (s.afterLoad bytes).Inv := by
  obtain ⟨hwf, hrest⟩ := hinv
  refine ⟨State.wf_afterLoad s hwf bytes, ?_⟩
  unfold State.afterLoad
  split <;> exact hrest

theorem perform_inv {s t : State} {op : HostOp} (h : s.perform op = .next t) (hinv : s.Inv) : t.Inv := by
  cases op
  case step => exact engineStep_inv h hinv
  case load bytes =>
    obtain rfl := Host.Outcome.next.inj h
    exact afterLoad_inv hinv bytes
  case reset =>
    obtain rfl := Host.Outcome.next.inj h
    exact resetWith_inv s.cfg
  case setKeys | tick =>
    obtain rfl := Host.Outcome.next.inj h
    exact hinv

/-- Settles O52: each of the five operations keeps the bounds, `perform_inv`; a STEP by `exec_inv`. -/
theorem everyOperationKeepsTheBounds : Obligations.EveryOperationKeepsTheBounds := by
  unfold Obligations.EveryOperationKeepsTheBounds
  intro s t hinv h
  cases hsch : s.schedule with
  | nil =>
    rw [step_nil s hsch] at h
    exact engineStep_inv h hinv
  | cons op rest =>
    rw [step_cons s op rest hsch] at h
    exact perform_inv h hinv

/-- Settles O53: `resetWith_inv`. -/
theorem boundsHoldAfterReset : Obligations.BoundsHoldAfterReset := by
  unfold Obligations.BoundsHoldAfterReset
  exact resetWith_inv

end Sys2Proof.Claims
end

section
/-! PROOFS. Which registers an instruction writes (spec/10_state.md R21, R22), what it returns (R37), and which parts
of the state it does not read (R30, R44). -/

namespace Sys2Proof.Claims

open Sys2Proof.Machine

/-- Settles O44: the frame of an instruction, `exec_same`. -/
theorem instructionsWriteOnlyListedState : Obligations.InstructionsWriteOnlyListedState := by
  unfold Obligations.InstructionsWriteOnlyListedState
  exact fun _ _ _ h => keepsAllBut_of_same fun _ hp => exec_same h hp

/-! ## Registers -/

theorem reg_setReg_of_ne (s : State) {r d : Reg} (b : Byte) (h : r ≠ d) : (s.setReg d b).reg r = s.reg r := by
  rw [State.reg_setReg, if_neg h]

theorem reg_writeFlagged_of_ne (s : State) (flag : Bool) {r d : Reg} (b : Byte) (h : r ≠ d) (hvf : r ≠ vf) :
    (s.writeFlagged flag d b).reg r = s.reg r := by
  rw [State.reg_writeFlagged, if_neg h, if_neg hvf]

/-- Loading a list of registers keeps those above it. -/
theorem reg_loadRegs_of_length_le (s : State) {bs : List Byte} {r : Reg} (h : bs.length ≤ r.val) :
    (s.loadRegs 0 bs).reg r = s.reg r := by
  simp [State.reg_loadRegs, h]

theorem exec_reg {i : Instr} {s t : State} {r : Reg} (h : exec i s = .next t) (hd : ¬ IsDestination r i)
    (hf : ¬ (r = 15 ∧ WritesFlag i)) : t.reg r = s.reg r := by
  by_cases hw : Part.regs ∈ writtenBy i
  · cases i
    case ldImm | addImm | mov | or | and | xor | rnd | ldVxDt =>
      obtain rfl := Host.Outcome.next.inj h
      exact reg_setReg_of_ne s _ hd
    case add | sub | shr | subn | shl =>
      obtain rfl := Host.Outcome.next.inj h
      exact reg_writeFlagged_of_ne s _ _ hd fun hr => hf ⟨hr, trivial⟩
    case ldVxK =>
      obtain ⟨b, rfl⟩ | rfl := execLdVxK_eq_next h
      · exact reg_setReg_of_ne s b hd
      · rfl
    case addI =>
      obtain rfl := Host.Outcome.next.inj h
      exact reg_setReg_of_ne _ _ fun hr => hf ⟨hr, trivial⟩
    case drw =>
      obtain ⟨rfl, -⟩ := accessing_eq_next h
      exact reg_setReg_of_ne _ _ fun hr => hf ⟨hr, trivial⟩
    case ldRegs =>
      obtain ⟨rfl, -⟩ := accessing_eq_next h
      refine reg_loadRegs_of_length_le s ?_
      rw [State.bytesFrom_length]
      exact Nat.lt_of_not_le hd
    all_goals simp [writtenBy] at hw
  · have hv : s.same t .regs := exec_same h (by simpa using hw)
    exact State.keeps_of_same hv r

/-- Settles O45: `exec_reg`. -/
theorem registersChangeOnlyAsDestinationOrFlag : Obligations.RegistersChangeOnlyAsDestinationOrFlag := by
  unfold Obligations.RegistersChangeOnlyAsDestinationOrFlag
  exact fun _ _ _ _ => exec_reg

/-! ## Outputs -/

theorem exec_result {i : Instr} {s t : State} (h : exec i s = .next t) : t.result = outputsOf i s := by
  cases i
  case ret =>
    obtain ⟨-, -, -, hresult, -⟩ := execRet_eq_next_stackAt h
    exact hresult
  case call =>
    obtain ⟨-, hresult, -⟩ := execCall_eq_next_stackAt h
    exact hresult
  case skp | sknp =>
    obtain ⟨c, rfl⟩ := State.skipOnKey_eq_next h
    rfl
  case ldVxK =>
    obtain ⟨hd, b, rfl⟩ | ⟨hd, rfl⟩ := execLdVxK_eq_next_delivered h
    · exact congrArg _ (decide_eq_false (not_not_intro hd)).symm
    · exact congrArg _ (decide_eq_true hd).symm
  case drw | ldB | stRegs | ldRegs =>
    obtain ⟨rfl, -⟩ := accessing_eq_next h
    rfl
  all_goals
    obtain rfl := Host.Outcome.next.inj h
    rfl

/-- Settles O46: instruction by instruction, `exec_result`. -/
theorem outputsOfEveryInstruction : Obligations.OutputsOfEveryInstruction := by
  unfold Obligations.OutputsOfEveryInstruction
  exact fun _ _ _ => exec_result

/-! ## Parts that an instruction does not read

Each statement changes an input or `ST`; they are one fact, about a change of both. -/

/-- The state with its inputs and `ST` changed. -/
def withUnread (f : Inputs → Inputs) (g : Byte → Byte) (s : State) : State :=
  { s with inputs := f s.inputs, st := g s.st }

section
variable (f : Inputs → Inputs) (g : Byte → Byte)

theorem accessing_withUnread (i : Instr) (s : State) (base len : Nat) {after after' : State}
    (h : after' = withUnread f g after) :
    accessing i (withUnread f g s) base len after' =
      mapNext (withUnread f g) (accessing i s base len after) := by
  subst h
  unfold accessing
  cases firstOutOfRange base len <;> rfl

theorem loadRegs_withUnread (s : State) (k : Nat) (bs : List Byte) :
    (withUnread f g s).loadRegs k bs = withUnread f g (s.loadRegs k bs) := by
  induction bs generalizing s k with
  | nil => rfl
  | cons b bs ih => exact ih { s with v := s.v.setIfInBounds k b } (k + 1)

theorem skipOnKey_withUnread (s : State) (i : Instr) (x : Reg) (level : Bool) :
    (withUnread f g s).skipOnKey i x level = mapNext (withUnread f g) (s.skipOnKey i x level) := by
  by_cases hk : (s.reg x).toNat < nKeys
  · rw [State.skipOnKey_ok s i x level hk]
    exact State.skipOnKey_ok (withUnread f g s) i x level hk
  · rw [State.skipOnKey_fault s i x level hk]
    exact State.skipOnKey_fault (withUnread f g s) i x level hk

theorem pop_withUnread (s : State) :
    (withUnread f g s).pop = s.pop.map (Prod.map id (withUnread f g)) := by
  by_cases hsp : s.sp.val = 0
  · rw [(State.pop_eq_none s).mpr hsp]
    exact (State.pop_eq_none (withUnread f g s)).mpr hsp
  · have hpop : s.pop = some (_, _) := dif_neg hsp
    rw [hpop]
    exact dif_neg hsp

theorem push_withUnread (s : State) (w : Word) :
    (withUnread f g s).push w = (s.push w).map (withUnread f g) := by
  by_cases hsp : s.sp.val < stackDepth
  · have hpush : s.push w = some _ := dif_pos hsp
    rw [hpush]
    exact dif_pos hsp
  · have hpush : s.push w = none := dif_neg hsp
    rw [hpush]
    exact dif_neg hsp

theorem exec_withUnread (i : Instr) (s : State)
    (hkey : ∀ x, i = .ldVxK x → (f s.inputs).keyPressed = s.inputs.keyPressed)
    (hrnd : ∀ x nn, i = .rnd x nn → (f s.inputs).rnd = s.inputs.rnd)
    (hst : ∀ x, i = .ldStVx x → ∀ b, g b = b) :
    exec i (withUnread f g s) = mapNext (withUnread f g) (exec i s) := by
  cases i
  case ret =>
    simp only [exec, execRet, pop_withUnread]
    cases s.pop <;> rfl
  case call =>
    have hpush : (withUnread f g s).push (withUnread f g s).pc = (s.push s.pc).map (withUnread f g) :=
      push_withUnread f g s s.pc
    simp only [exec, execCall, hpush]
    cases s.push s.pc <;> rfl
  case skp x | sknp x => exact skipOnKey_withUnread f g s _ x _
  case drw | ldB | stRegs => exact accessing_withUnread f g _ s _ _ rfl
  case ldRegs =>
    simp only [exec, execLdRegs, loadRegs_withUnread]
    exact accessing_withUnread f g _ s _ _ rfl
  case ldVxK x =>
    have hread : (withUnread f g s).inputs.keyPressed = s.inputs.keyPressed := hkey x rfl
    have hkb : (withUnread f g s).kb = s.kb := rfl
    simp only [exec, execLdVxK, hread, hkb]
    cases firstKey s.kb with
    | none => rfl
    | some b => cases s.inputs.keyPressed <;> rfl
  case rnd x nn =>
    have hread : (withUnread f g s).inputs.rnd = s.inputs.rnd := hrnd x nn rfl
    simp only [exec, execRnd, hread]
    rfl
  case ldStVx x =>
    have hwrite : g (s.reg x) = s.reg x := hst x rfl (s.reg x)
    simp only [exec, execLdStVx, mapNext, withUnread, State.advance, State.finish, hwrite]
    rfl
  all_goals rfl

end

/-- Settles O47: `exec_withUnread` for a change of one input. -/
theorem inputsReachOnlyTheirReaders : Obligations.InputsReachOnlyTheirReaders := by
  unfold Obligations.InputsReachOnlyTheirReaders
  intro i s k r
  constructor
  · intro hi
    exact exec_withUnread (fun inp => { inp with keyPressed := k }) id i s (fun x hx => absurd hx (hi x))
      (fun _ _ _ => rfl) (fun _ _ _ => rfl)
  · intro hi
    exact exec_withUnread (fun inp => { inp with rnd := r }) id i s (fun _ _ => rfl)
      (fun x nn hx => absurd hx (hi x nn)) (fun _ _ _ => rfl)

/-- Settles O48: `exec_withUnread` for a change of `ST`; LD ST, Vx overwrites it. -/
theorem soundTimerIsNeverRead : Obligations.SoundTimerIsNeverRead := by
  unfold Obligations.SoundTimerIsNeverRead
  intro i s b
  constructor
  · intro hi
    exact exec_withUnread id (fun _ => b) i s (fun _ _ => rfl) (fun _ _ _ => rfl)
      (fun x hx => absurd hx (hi x))
  · intro x
    rfl

end Sys2Proof.Claims
end

section
/-! PROOFS. The state after RESET and the host's operations (spec/10_state.md R31, R39, R40), and `V[15]` as an operand
(R23). -/

namespace Sys2Proof.Claims

open Sys2Proof.Machine

/-! ## Reset -/

theorem background_eq (font : Vector Byte 80) (a : Nat) :
    some (Memory.background font a) = if a < 80 then font[a]? else some 0 := by
  rw [Memory.background]
  split
  · next h => rw [Vector.getElem?_eq_getElem h, Option.getD_some]
  · next h => rw [Vector.getElem?_eq_none (Nat.le_of_not_lt h), Option.getD_none]; rfl

/-- 20_memory.md R52: memory as an observer reads it when no cell differs from the reset content. -/
theorem readByte_of_mem_nil {s : State} (h : s.mem = []) (a : Nat) :
    s.readByte a = if a < 80 then s.cfg.font[a]? else if a < 4096 then some 0 else none := by
  have hbyte : s.byteAt a = Memory.background s.cfg.font a := by rw [State.byteAt, h, Memory.read]
  rw [State.readByte, hbyte, background_eq]
  by_cases h80 : a < 80
  · have hin : a < memSize := Nat.lt_trans h80 (by decide)
    rw [if_pos hin, if_pos h80, if_pos h80]
  · rw [if_neg h80, if_neg h80]

/-- The values of RESET stand in the fields of the machine; those of the model's own are free. -/
theorem hasResetValues_resetWith (cfg : Config) (schedule : List HostOp) (draws : Nat) :
    HasResetValues cfg { State.resetWith cfg with schedule := schedule, draws := draws } := by
  have hentry := cfg.entryAddr.isLt
  refine ⟨?_, rfl, ?_, rfl, ?_, rfl, rfl, ?_, ?_, readByte_of_mem_nil rfl⟩
  · intro r
    simp [State.reg, State.resetWith]
  · simp only [State.resetWith, BitVec.toNat_ofNat]
    omega
  · intro k
    simp [State.stackAt, State.resetWith]
  · intro r c
    simp [State.cell, State.resetWith]
  · intro k
    simp [State.key, State.resetWith]

/-- Settles O1: `hasResetValues_resetWith`, for every machine and for the default one. -/
theorem resetStateHoldsResetValues : Obligations.ResetStateHoldsResetValues := by
  unfold Obligations.ResetStateHoldsResetValues
  exact ⟨fun cfg => hasResetValues_resetWith cfg [] 0, hasResetValues_resetWith Config.default [] 0, rfl⟩

/-! ## The host's operations -/

/-- Settles O2: RESET puts `State.resetWith` of the machine's parameters in place. -/
theorem resetOperationRestoresResetValues : Obligations.ResetOperationRestoresResetValues := by
  unfold Obligations.ResetOperationRestoresResetValues
  intro s rest
  exact ⟨{ s with schedule := rest }.afterReset, rfl, hasResetValues_resetWith s.cfg rest s.draws, rfl, rfl,
    rfl, rfl⟩

theorem countDown_toNat (t : Byte) : (countDown t).toNat = t.toNat - 1 := by
  unfold countDown
  split
  · next h => rw [h]; rfl
  · next h => bv_omega

/-- Settles O3: a timer after TICK by `countDown_toNat`, every other field as before. -/
theorem tickCountsBothTimersDown : Obligations.TickCountsBothTimersDown := by
  unfold Obligations.TickCountsBothTimersDown
  intro s rest
  have hdt := countDown_toNat s.dt
  have hst := countDown_toNat s.st
  refine ⟨{ s with schedule := rest }.afterTick, rfl, fun _ => hdt, fun h0 => hdt.trans (by omega),
    fun _ => hst, fun h0 => hst.trans (by omega), rfl, rfl, keepsAllBut_of_same fun p hp => ?_⟩
  cases p <;> simp_all [State.same, State.afterTick]

/-- Settles O4: SET_KEYS replaces the snapshot and keeps every other field. -/
theorem setKeysOverwritesSnapshot : Obligations.SetKeysOverwritesSnapshot := by
  unfold Obligations.SetKeysOverwritesSnapshot
  intro s keys rest
  refine ⟨{ s with schedule := rest }.afterSetKeys keys, rfl, fun _ => rfl, rfl, rfl,
    keepsAllBut_of_same fun p hp => ?_⟩
  cases p <;> simp_all [State.same, State.afterSetKeys]

/-! ## `V[15]` as an operand -/

theorem byte_sub_toNat (a b : Byte) : (a - b).toNat = (a.toNat + 256 - b.toNat) % 256 := by
  have := b.isLt
  rw [BitVec.toNat_sub]
  congr 1
  omega

theorem flagByte_toNat (c : Bool) : (flagByte c).toNat = if c then 1 else 0 := by
  cases c <;> rfl

theorem flagByte_decide_toNat (p : Prop) [Decidable p] :
    (flagByte (decide p)).toNat = if p then 1 else 0 := by
  simp [flagByte_toNat]

theorem reg_writeFlagged_dst (s : State) (flag : Bool) (d : Reg) (b : Byte) :
    (s.writeFlagged flag d b).reg d = b := by
  rw [State.reg_writeFlagged, if_pos rfl]

theorem reg_writeFlagged_vf (s : State) (flag : Bool) {d : Reg} (b : Byte) (h : d ≠ vf) :
    (s.writeFlagged flag d b).reg vf = flagByte flag := by
  rw [State.reg_writeFlagged, if_neg h.symm, if_pos rfl]

/-- Settles O28: the operands are read before the flag is written, and the result, written after it, stands
(`reg_writeFlagged_dst`). -/
theorem flagRegisterAsOperand : Obligations.FlagRegisterAsOperand := by
  unfold Obligations.FlagRegisterAsOperand
  intro x s
  refine ⟨⟨_, rfl, ?add⟩, ⟨_, rfl, ?subn⟩, fun hx => ⟨_, rfl, ?subnResult, ?subnFlag⟩,
    ⟨_, rfl, ?index, ?carry⟩⟩
  case add => simp only [State.advance_eq, State.finish_reg, reg_writeFlagged_dst, BitVec.toNat_add, Nat.reducePow]
  case subn => simp only [State.advance_eq, State.finish_reg, reg_writeFlagged_dst, byte_sub_toNat]
  case subnResult => rw [State.advance_eq, State.finish_reg, reg_writeFlagged_dst, byte_sub_toNat]
  case subnFlag =>
    rw [State.advance_eq, State.finish_reg, reg_writeFlagged_vf s _ _ hx, strictlyGreater,
      flagByte_decide_toNat]
  case index =>
    rw [State.advance_eq, State.finish_i, State.setReg_i, BitVec.toNat_add, zext8_toNat]
  case carry =>
    rw [State.advance_eq, State.finish_reg, State.reg_setReg_same, carryOfIndex, flagByte_decide_toNat]

end Sys2Proof.Claims
end

section
/-! PROOFS. Memory as its reader sees it (spec/20_memory.md R50, R52, R54, R59, R64): canonical memories that read alike
are equal, LOAD puts its image in place, and a fetch reads what a register dump stored. -/

namespace Sys2Proof.Machine

/-! ## The canonical form is canonical (assumption log 11) -/

section
variable {font : Vector Byte 80}

theorem Memory.read_of_mem {m : Memory} (hm : m.Pairwise (fun c d => c.1 < d.1)) {c : Host.Cell}
    (hc : c ∈ m) : Memory.read font m c.1 = c.2 := by
  induction m with
  | nil => cases hc
  | cons d m ih =>
    obtain ⟨hd, hm⟩ := List.pairwise_cons.mp hm
    rw [Memory.read_cons]
    obtain rfl | hc := List.mem_cons.mp hc
    · rw [if_pos rfl]
    · rw [if_neg (Nat.ne_of_gt (hd c hc)), ih hm hc]

theorem Memory.mem_of_read_ne_background {m : Memory} {a : Nat}
    (h : Memory.read font m a ≠ Memory.background font a) : (a, Memory.read font m a) ∈ m := by
  induction m with
  | nil => exact absurd rfl h
  | cons d m ih =>
    rw [Memory.read_cons] at h ⊢
    split at h
    · next ha => rw [if_pos ha, ha]; exact List.mem_cons_self
    · next ha => rw [if_neg ha]; exact List.mem_cons_of_mem _ (ih h)

/-- The cells of a canonical memory are determined by what it reads as. -/
theorem Memory.mem_iff_read {m : Memory} (h : Memory.wf font m) (c : Host.Cell) :
    c ∈ m ↔ c.1 < memSize ∧ Memory.read font m c.1 = c.2 ∧ c.2 ≠ Memory.background font c.1 := by
  obtain ⟨hm, hcells⟩ := h
  constructor
  · intro hc
    obtain ⟨hlt, hne⟩ := hcells c hc
    exact ⟨hlt, Memory.read_of_mem hm hc, hne⟩
  · rintro ⟨-, hread, hne⟩
    have hmem := Memory.mem_of_read_ne_background (hread ▸ hne)
    rwa [hread] at hmem

theorem Memory.eq_of_read_eq {m m' : Memory} (h : Memory.wf font m) (h' : Memory.wf font m')
    (hread : ∀ a, a < memSize → Memory.read font m a = Memory.read font m' a) : m = m' := by
  have hirrefl : Std.Irrefl (fun c d : Host.Cell => c.1 < d.1) := ⟨fun c => Nat.lt_irrefl c.1⟩
  have hasymm : Std.Antisymm (fun c d : Host.Cell => c.1 < d.1) :=
    ⟨fun _ _ hcd hdc => absurd hcd (Nat.lt_asymm hdc)⟩
  refine h.1.eq_of_mem_iff h'.1 fun c => ?_
  rw [Memory.mem_iff_read h, Memory.mem_iff_read h']
  exact and_congr_right fun hc => by rw [hread c.1 hc]

end

/-! ## Reading after a store -/

/-- 20_memory.md R55: one byte as an observer reads it after a run of stores inside the memory. -/
theorem State.readByte_storeBytes (s : State) (hm : s.mem.Pairwise (fun c d => c.1 < d.1)) {base : Nat}
    {bs : List Byte} (hin : base + bs.length ≤ memSize) (a : Nat) :
    (s.storeBytes base bs).readByte a =
      if base ≤ a ∧ a < base + bs.length then bs[a - base]? else s.readByte a := by
  rw [State.readByte, State.byteAt_storeBytes s hm]
  split_ifs with hmem hbase hrun hrun
  · have hk : a - base < bs.length := by omega
    rw [List.getElem?_eq_getElem hk, Option.getD_some]
  · rw [List.getElem?_eq_none (by omega), Option.getD_none, State.readByte, if_pos hmem]
  · omega
  · rw [State.readByte, if_pos hmem]
  · omega
  · rw [State.readByte, if_neg hmem]

/-- 45_family_F.md R167: where a register dump puts each register. -/
theorem State.byteAt_storeBytes_regsUpTo (s : State) (hm : s.mem.Pairwise (fun c d => c.1 < d.1))
    (base : Nat) {x r : Reg} (hr : r ≤ x) :
    (s.storeBytes base (s.regsUpTo x)).byteAt (base + r.val) = s.reg r := by
  rw [State.byteAt_storeBytes s hm, if_pos (Nat.le_add_right _ _), Nat.add_sub_cancel_left,
    State.regsUpTo_getElem?, dif_pos (Fin.le_def.mp hr), Option.getD_some]

theorem exec_stRegs_ok {x : Reg} {s : State} (h : s.i.toNat + x.val < memSize) :
    exec (.stRegs x) s = .next (s.storeBytes s.i.toNat (s.regsUpTo x)).advance :=
  accessing_ok _ s _ _ _ (.inr h)

/-! ## LOAD (20_memory.md R59) -/

theorem State.afterLoad_of_le (s : State) {bytes : List Byte} (h : bytes.length ≤ romMax) :
    s.afterLoad bytes = { s.storeBytes s.cfg.entryAddr.val bytes with result := .loadOk } :=
  if_neg (Nat.not_lt.mpr h)

theorem State.afterLoad_of_lt (s : State) {bytes : List Byte} (h : romMax < bytes.length) :
    s.afterLoad bytes = { s with result := .oversizedRom } :=
  if_pos h

end Sys2Proof.Machine

namespace Sys2Proof.Claims

open Sys2Proof.Machine

/-- Settles O40: a canonical memory's cells are determined by what it reads as, `Memory.mem_iff_read`. -/
theorem canonicalMemoriesEqualWhenReadsAgree : Obligations.CanonicalMemoriesEqualWhenReadsAgree := by
  unfold Obligations.CanonicalMemoriesEqualWhenReadsAgree
  exact fun _ _ _ => Memory.eq_of_read_eq

/-- Settles O5: an accepted image is a run of stores inside the memory, since `ENTRY_ADDR` is at most 2048. -/
theorem loadCopiesImageOrReportsOversized : Obligations.LoadCopiesImageOrReportsOversized := by
  unfold Obligations.LoadCopiesImageOrReportsOversized
  intro s bytes rest hwf
  have hstep : step (scheduled s (.load bytes) rest) = .next ({ s with schedule := rest }.afterLoad bytes) :=
    step_cons (scheduled s (.load bytes) rest) _ rest rfl
  constructor
  · intro hlen
    rw [State.afterLoad_of_le _ hlen] at hstep
    have hin : s.cfg.entryAddr.val + bytes.length ≤ memSize := by
      have hentry := s.cfg.entryAddr.isLt
      simp only [memSize]
      omega
    refine ⟨_, hstep, State.readByte_storeBytes s hwf.1 hin, rfl, rfl, keepsAllBut_of_same fun p hp => ?_⟩
    cases p <;> simp_all [State.same]
  · intro hlen
    rw [State.afterLoad_of_lt _ hlen] at hstep
    refine ⟨_, hstep, rfl, rfl, keepsAllBut_of_same fun p hp => ?_⟩
    cases p <;> simp_all [State.same]

/-- Settles O39: the two bytes a fetch reads at `I` are those of `V[0]` and `V[1]`, by
`State.byteAt_storeBytes_regsUpTo`. -/
theorem storedBytesAreFetchedNext : Obligations.StoredBytesAreFetchedNext := by
  unfold Obligations.StoredBytesAreFetchedNext
  intro x s hwf hx hin
  have hbyte (r : Reg) (hr : r ≤ x) := State.byteAt_storeBytes_regsUpTo s hwf.1 s.i.toNat hr
  have hlast : s.i.toNat + 1 < memSize := Nat.lt_of_le_of_lt (Nat.add_le_add_left hx _) hin
  refine ⟨_, exec_stRegs_ok hin, wordOfBytes (s.reg 0) (s.reg 1), ?_, wordOfBytes_toNat _ _⟩
  rw [State.fetch_ok _ hlast]
  exact congrArg Except.ok (congrArg₂ wordOfBytes (hbyte 0 (Fin.zero_le x)) (hbyte 1 hx))

end Sys2Proof.Claims
end

section
/-! PROOFS. The decoder against the encoder and against the opcode map (spec/30_encoding.md R81, R84 to R91, R94): each
well-formed instruction is read back, each word that decodes is the encoding of its instruction, and the map's first
matching row names it. -/

namespace Sys2Proof

/-! ## Decoding what the encoder writes -/

theorem lowByte_ne_of_wellFormed_nop {nnn : Addr12} (h : (Instr.nop nnn).wellFormed = true) :
    lowByte nnn ≠ 0xE0#8 ∧ lowByte nnn ≠ 0xEE#8 := by
  simpa [Instr.wellFormed, nopIsNotCls, nopIsNotRet] using h

/-- One case for each format of R81 and each of the decoder's tables. -/
theorem decodeWord_encode {i : Instr} (hi : i.wellFormed = true) : decodeWord (encode i) = .ok i := by
  cases i
  case cls | ret => simp [encode, decodeWord, decodeFamily0, wordZNN_family, wordZNN_nib2, wordZNN_nn]
  case nop nnn =>
    obtain ⟨hcls, hret⟩ := lowByte_ne_of_wellFormed_nop hi
    simp [encode, decodeWord, decodeFamily0, wordNNN_family, wordNNN_nn, wordNNN_nnn, hcls, hret]
  case jp | call | ldI | jpV0 => simp [encode, decodeWord, wordNNN_family, wordNNN_nnn]
  case seImm | sneImm | ldImm | addImm | rnd =>
    simp [encode, decodeWord, wordXNN_family, wordXNN_x, wordXNN_nn]
  case seReg | sneReg | drw =>
    simp [encode, decodeWord, wordXYN_family, wordXYN_x, wordXYN_y, wordXYN_n]
  case mov | or | and | xor | add | sub | shr | subn | shl =>
    simp [encode, decodeWord, decodeFamily8, wordXYN_family, wordXYN_x, wordXYN_y, wordXYN_n]
  case skp | sknp => simp [encode, decodeWord, decodeFamilyE, wordXNN_family, wordXNN_x, wordXNN_nn]
  case ldVxDt | ldVxK | ldDtVx | ldStVx | addI | ldF | ldB | stRegs | ldRegs =>
    simp [encode, decodeWord, decodeFamilyF, wordXNN_family, wordXNN_x, wordXNN_nn]

theorem decode_encodeBytes_append {i : Instr} (hi : i.wellFormed = true) (rest : List Byte) :
    decode (encodeBytes i ++ rest) = .ok (i, rest) := by
  have hword : decodeWord (wordOfBytes (encode i).hi (encode i).lo) = .ok i := by
    rw [wordOfBytes_hi_lo, decodeWord_encode hi]
  exact congrArg (Except.map fun j => (j, rest)) hword

/-! ## Encoding what the decoder reads

The tables of the decoder give the family, and in families 0, 8, E and F the low nibble or byte, as a number. -/

section
variable {w : Word} {f n : Nibble} {b : Byte}

theorem wordNNN_of_family (hf : w.family.toNat = f.toNat) : wordNNN f w.nnn = w := by
  rw [← BitVec.eq_of_toNat_eq hf, wordNNN_of_fields]

theorem wordXNN_of_family (hf : w.family.toNat = f.toNat) : wordXNN f w.x w.nn = w := by
  rw [← BitVec.eq_of_toNat_eq hf, wordXNN_of_fields]

theorem wordXYN_of_family (hf : w.family.toNat = f.toNat) : wordXYN f w.x w.y w.n = w := by
  rw [← BitVec.eq_of_toNat_eq hf, wordXYN_of_fields]

theorem wordXNN_of_family_nn (hf : w.family.toNat = f.toNat) (hb : w.nn.toNat = b.toNat) :
    wordXNN f w.x b = w := by
  rw [← BitVec.eq_of_toNat_eq hb, wordXNN_of_family hf]

theorem wordXYN_of_family_n (hf : w.family.toNat = f.toNat) (hn : w.n.toNat = n.toNat) :
    wordXYN f w.x w.y n = w := by
  rw [← BitVec.eq_of_toNat_eq hn, wordXYN_of_family hf]

theorem wordZNN_of_family_nn (hf : w.family.toNat = 0) (hb : w.nn = b) : wordZNN w.nib2 b = w := by
  rw [← hb, wordZNN_of_fields w (BitVec.eq_of_toNat_eq hf)]

theorem Word.lowByte_nnn (w : Word) : lowByte w.nnn = w.nn := by
  rw [← wordNNN_nn w.family, wordNNN_of_fields]

end

/-- 30_encoding.md R87 to R89: no row of the map has the word, for the reason given. -/
def Reject.Refuses : Reject → Word → Prop
  | .truncated, _ => False
  | .reservedFamily8 n, w =>
    n = w.n ∧ w.family = 0x8#4 ∧
      w.n ∉ [0x0#4, 0x1#4, 0x2#4, 0x3#4, 0x4#4, 0x5#4, 0x6#4, 0x7#4, 0xE#4]
  | .undefinedFamilyE nn, w => nn = w.nn ∧ w.family = 0xE#4 ∧ w.nn ∉ [0x9E#8, 0xA1#8]
  | .undefinedFamilyF nn, w =>
    nn = w.nn ∧ w.family = 0xF#4 ∧
      w.nn ∉ [0x07#8, 0x0A#8, 0x15#8, 0x18#8, 0x1E#8, 0x29#8, 0x33#8, 0x55#8, 0x65#8]

/-- What a decoder may answer for a word: a well-formed instruction whose encoding is the word, or a reason that
holds of it. -/
def Reads (w : Word) : Except Reject Instr → Prop
  | .ok i => i.wellFormed = true ∧ encode i = w
  | .error r => r.Refuses w

section
variable {w : Word}

theorem decodeFamily0_reads (hf : w.family.toNat = 0x0) : Reads w (.ok (decodeFamily0 w)) := by
  unfold decodeFamily0
  split_ifs with hcls hret
  · exact ⟨rfl, wordZNN_of_family_nn hf hcls⟩
  · exact ⟨rfl, wordZNN_of_family_nn hf hret⟩
  · have hwf : (Instr.nop w.nnn).wellFormed = true := by
      simp [Instr.wellFormed, nopIsNotCls, nopIsNotRet, Word.lowByte_nnn, hcls, hret]
    exact ⟨hwf, wordNNN_of_family hf⟩

theorem decodeFamily8_reads (hf : w.family.toNat = 0x8) : Reads w (decodeFamily8 w) := by
  unfold decodeFamily8
  split
  case h_10 => exact ⟨rfl, BitVec.eq_of_toNat_eq hf, by simp_all [BitVec.toNat_eq]⟩
  all_goals next hn => exact ⟨rfl, wordXYN_of_family_n hf hn⟩

theorem decodeFamilyE_reads (hf : w.family.toNat = 0xE) : Reads w (decodeFamilyE w) := by
  unfold decodeFamilyE
  split
  case h_3 => exact ⟨rfl, BitVec.eq_of_toNat_eq hf, by simp_all [BitVec.toNat_eq]⟩
  all_goals next hnn => exact ⟨rfl, wordXNN_of_family_nn hf hnn⟩

theorem decodeFamilyF_reads (hf : w.family.toNat = 0xF) : Reads w (decodeFamilyF w) := by
  unfold decodeFamilyF
  split
  case h_10 => exact ⟨rfl, BitVec.eq_of_toNat_eq hf, by simp_all [BitVec.toNat_eq]⟩
  all_goals next hnn => exact ⟨rfl, wordXNN_of_family_nn hf hnn⟩

theorem decodeWord_reads (w : Word) : Reads w (decodeWord w) := by
  have hlt := w.family.isLt
  unfold decodeWord
  split
  case h_1 hf => exact decodeFamily0_reads hf
  case h_9 hf => exact decodeFamily8_reads hf
  case h_15 hf => exact decodeFamilyE_reads hf
  case h_16 =>
    simp only [imp_false] at *
    have hf : w.family.toNat = 0xF := by omega
    exact decodeFamilyF_reads hf
  case h_2 hf | h_3 hf | h_11 hf | h_12 hf => exact ⟨rfl, wordNNN_of_family hf⟩
  case h_4 hf | h_5 hf | h_7 hf | h_8 hf | h_13 hf => exact ⟨rfl, wordXNN_of_family hf⟩
  case h_6 hf | h_10 hf | h_14 hf => exact ⟨rfl, wordXYN_of_family hf⟩

theorem wellFormed_and_encode_of_decodeWord {i : Instr} (h : decodeWord w = .ok i) :
    i.wellFormed = true ∧ encode i = w := by
  have hreads := decodeWord_reads w
  rwa [h] at hreads

theorem refuses_of_decodeWord {r : Reject} (h : decodeWord w = .error r) : r.Refuses w := by
  have hreads := decodeWord_reads w
  rwa [h] at hreads

end

/-! ## The masks of the opcode map

Each mask keeps the family, and the low nibble or byte where the map looks at one. -/

theorem and_F000 (w : Word) : w &&& 0xF000#16 = wordNNN w.family 0 :=
  calc w &&& 0xF000#16
    _ = w.family ++ w.nnn &&& BitVec.allOnes 4 ++ 0#12 := congrArg (· &&& _) (wordNNN_of_fields w).symm
    _ = w.family ++ 0#12 := by rw [BitVec.and_append, BitVec.and_allOnes, BitVec.and_zero]

theorem and_F00F (w : Word) : w &&& 0xF00F#16 = wordXYN w.family 0 0 w.n :=
  calc w &&& 0xF00F#16
    _ = w.family ++ (w.nib2 ++ (w.nib1 ++ w.n)) &&&
          BitVec.allOnes 4 ++ (0#4 ++ (0#4 ++ BitVec.allOnes 4)) :=
      congrArg (· &&& _) (wordXYN_of_fields w).symm
    _ = w.family ++ (0#4 ++ (0#4 ++ w.n)) := by
      simp only [BitVec.and_append, BitVec.and_allOnes, BitVec.and_zero]

theorem and_F0FF (w : Word) : w &&& 0xF0FF#16 = wordXNN w.family 0 w.nn :=
  calc w &&& 0xF0FF#16
    _ = w.family ++ (w.nib2 ++ w.nn) &&& BitVec.allOnes 4 ++ (0#4 ++ BitVec.allOnes 8) :=
      congrArg (· &&& _) (wordXNN_of_fields w).symm
    _ = w.family ++ (0#4 ++ w.nn) := by
      simp only [BitVec.and_append, BitVec.and_allOnes, BitVec.and_zero]

/-! A row, whose match `m` has no bit outside its mask, is met by the words with the fields of `m` under the mask. -/

section
variable {w m : Word}

@[simp] theorem and_F000_eq_iff (hm : m &&& 0xF000#16 = m) :
    w &&& 0xF000#16 = m ↔ w.family = m.extractLsb' 12 4 := by
  rw [and_F000] at hm ⊢
  constructor
  · rintro rfl
    exact (wordNNN_family w.family 0).symm
  · intro hf
    exact hf ▸ hm

@[simp] theorem and_F00F_eq_iff (hm : m &&& 0xF00F#16 = m) :
    w &&& 0xF00F#16 = m ↔ w.family = m.extractLsb' 12 4 ∧ w.n = m.extractLsb' 0 4 := by
  rw [and_F00F] at hm ⊢
  constructor
  · rintro rfl
    exact ⟨(wordXYN_family w.family 0 0 w.n).symm, (wordXYN_n w.family 0 0 w.n).symm⟩
  · rintro ⟨hf, hn⟩
    exact hf ▸ hn ▸ hm

@[simp] theorem and_F0FF_eq_iff (hm : m &&& 0xF0FF#16 = m) :
    w &&& 0xF0FF#16 = m ↔ w.family = m.extractLsb' 12 4 ∧ w.nn = m.extractLsb' 0 8 := by
  rw [and_F0FF] at hm ⊢
  constructor
  · rintro rfl
    exact ⟨(wordXNN_family w.family 0 w.nn).symm, (wordXNN_nn w.family 0 w.nn).symm⟩
  · rintro ⟨hf, hnn⟩
    exact hf ▸ hnn ▸ hm

end

end Sys2Proof

namespace Sys2Proof.Claims

open Sys2Proof.Machine

/-! ## The search of the opcode map -/

/-- The identifier of the first row of the map that has the word (30_encoding.md R94). -/
def identifierInMap (w : Word) : Option String :=
  (opcodeMap.find? fun row => w &&& row.1 == row.2.1).map fun row => row.2.2

/-- One case for each format of R81: the fields of its words decide each row of the map. -/
theorem identifierInMap_encode {i : Instr} (hi : i.wellFormed = true) :
    identifierInMap (encode i) = some i.mnemonic := by
  cases i
  case cls | ret =>
    simp [identifierInMap, opcodeMap, encode, Instr.mnemonic, wordZNN_family, wordZNN_nn]
  case nop nnn =>
    obtain ⟨hcls, hret⟩ := lowByte_ne_of_wellFormed_nop hi
    simp [identifierInMap, opcodeMap, encode, Instr.mnemonic, wordNNN_family, wordNNN_nn, hcls, hret]
  case jp | call | ldI | jpV0 =>
    simp [identifierInMap, opcodeMap, encode, Instr.mnemonic, wordNNN_family]
  case seReg | sneReg | drw | mov | or | and | xor | add | sub | shr | subn | shl =>
    simp [identifierInMap, opcodeMap, encode, Instr.mnemonic, wordXYN_family, wordXYN_n]
  case seImm | sneImm | ldImm | addImm | rnd | skp | sknp | ldVxDt | ldVxK | ldDtVx | ldStVx | addI | ldF | ldB |
      stRegs | ldRegs =>
    simp [identifierInMap, opcodeMap, encode, Instr.mnemonic, wordXNN_family, wordXNN_nn]

theorem identifierInMap_of_refuses {w : Word} {r : Reject} (h : r.Refuses w) :
    identifierInMap w = none := by
  cases r
  case truncated => exact h.elim
  case reservedFamily8 | undefinedFamilyE | undefinedFamilyF =>
    obtain ⟨-, hf, hlow⟩ := h
    simpa [identifierInMap, opcodeMap, hf] using hlow

/-- Settles O9: a word that decodes is the encoding of its instruction, which `identifierInMap_encode` finds in the map;
one that does not is in no row by `identifierInMap_of_refuses`. -/
theorem decoderFollowsOpcodeMap : Obligations.DecoderFollowsOpcodeMap := by
  unfold Obligations.DecoderFollowsOpcodeMap
  intro w
  cases h : decodeWord w with
  | ok i =>
    obtain ⟨hwf, rfl⟩ := wellFormed_and_encode_of_decodeWord h
    exact (identifierInMap_encode hwf).symm
  | error r => exact (identifierInMap_of_refuses (refuses_of_decodeWord h)).symm

/-- Settles O7: `decodeWord_encode` for the word, `decode_encodeBytes_append` for its bytes. -/
theorem decodeOfEncodeIsIdentity : Obligations.DecodeOfEncodeIsIdentity := by
  unfold Obligations.DecodeOfEncodeIsIdentity
  exact fun _ rest hi => ⟨decodeWord_encode hi, decode_encodeBytes_append hi rest⟩

/-- Settles O8: the part of `decodeWord_reads` about words that decode. -/
theorem encodeOfDecodeIsIdentity : Obligations.EncodeOfDecodeIsIdentity := by
  unfold Obligations.EncodeOfDecodeIsIdentity
  exact fun _ _ => wellFormed_and_encode_of_decodeWord

/-- Settles O6: the decoder evaluated at the eight words. -/
theorem sampleWordsDecode : Obligations.SampleWordsDecode := by
  unfold Obligations.SampleWordsDecode
  decide

end Sys2Proof.Claims
end

section
/-! PROOFS. What a STEP does with the word at `pc` (spec/30_encoding.md R83, R91), and what an instruction does with the
bits the decoder ignores (R86, R90). -/

namespace Sys2Proof.Claims

open Sys2Proof.Machine

/-! ## Fetch, decode, execute -/

theorem cycle_fetchFault {s : State} (h : 4095 ≤ s.pc.toNat) :
    s.cycle = .fault (.memoryOutOfRange s.pc none (max s.pc.toNat memSize)) := by
  have hout : memSize ≤ s.pc.toNat + 1 := Nat.succ_le_succ h
  rw [State.cycle, State.fetch_error s hout]
  rfl

/-- Settles O11: `cycle_fetchFault`; the first address out of range is the larger of `pc` and 4096. -/
theorem fetchOutOfRangeFaults : Obligations.FetchOutOfRangeFaults := by
  unfold Obligations.FetchOutOfRangeFaults
  intro s k r rest hpc
  have haddr : (if 4096 ≤ s.pc.toNat then s.pc.toNat else 4096) = max s.pc.toNat memSize := by
    simp only [memSize]
    split <;> omega
  rw [haddr]
  exact cycle_fetchFault (s := executing s k r rest) hpc

theorem decodeWord_of_decode_pair {hi lo : Byte} {i : Instr} {rest : List Byte}
    (h : decode [hi, lo] = .ok (i, rest)) : decodeWord (wordOfBytes hi lo) = .ok i := by
  rw [decode] at h
  cases hw : decodeWord (wordOfBytes hi lo) with
  | ok j =>
    rw [hw] at h
    exact congrArg Except.ok (Prod.mk.inj (Except.ok.inj h)).1
  | error r =>
    rw [hw] at h
    cases h

theorem cycle_of_decode {s : State} {i : Instr} {rest : List Byte} (hpc : s.pc.toNat + 1 < memSize)
    (h : decode [s.byteAt s.pc.toNat, s.byteAt (s.pc.toNat + 1)] = .ok (i, rest)) :
    s.cycle = exec i s :=
  State.cycle_exec (State.fetch_ok s hpc) (decodeWord_of_decode_pair h)

/-- Settles O10: both STEPs are a cycle, and their bytes at `pc` are those of `s`. -/
theorem stepRunsDecodedInstruction : Obligations.StepRunsDecodedInstruction := by
  unfold Obligations.StepRunsDecodedInstruction
  intro s i hpc h
  exact ⟨fun k r rest => cycle_of_decode (s := executing s k r rest) hpc h,
    cycle_of_decode (s := executingFree s) hpc h⟩

/-! ## No refusal -/

theorem accessing_ne_refused (i : Instr) (s : State) (base len : Nat) (after : State) (r : Refusal) :
    accessing i s base len after ≠ .refused r := by
  unfold accessing
  split <;> nofun

theorem skipOnKey_ne_refused (s : State) (i : Instr) (x : Reg) (level : Bool) (r : Refusal) :
    s.skipOnKey i x level ≠ .refused r := by
  unfold State.skipOnKey
  split <;> nofun

theorem exec_ne_refused (i : Instr) (s : State) (r : Refusal) : exec i s ≠ .refused r := by
  cases i
  case skp | sknp => exact skipOnKey_ne_refused s _ _ _ r
  case drw | ldB | stRegs | ldRegs => exact accessing_ne_refused _ s _ _ _ r
  case ret =>
    simp only [exec, execRet]
    split <;> nofun
  case call =>
    simp only [exec, execCall]
    split <;> nofun
  all_goals nofun

theorem undecoded_ne_refused (s : State) (w : Word) (reject : Reject) (r : Refusal) :
    s.undecoded w reject ≠ .refused r := by
  cases reject
  case reservedFamily8 =>
    simp only [State.undecoded]
    split <;> nofun
  all_goals nofun

theorem cycle_ne_refused (s : State) (r : Refusal) : s.cycle ≠ .refused r := by
  unfold State.cycle
  split
  · nofun
  · split
    · exact exec_ne_refused _ s r
    · exact undecoded_ne_refused s _ _ r

theorem perform_ne_refused (s : State) (op : HostOp) (r : Refusal) : s.perform op ≠ .refused r := by
  cases op
  case step => exact cycle_ne_refused _ r
  all_goals nofun

theorem step_ne_refused (s : State) (r : Refusal) : step s ≠ .refused r := by
  cases hsch : s.schedule with
  | nil =>
    rw [step_nil s hsch]
    exact cycle_ne_refused _ r
  | cons op rest =>
    rw [step_cons s op rest hsch]
    exact perform_ne_refused _ op r

/-- Settles O42: `exec_ne_refused` and `step_ne_refused`. -/
theorem nothingIsRefused : Obligations.NothingIsRefused := by
  unfold Obligations.NothingIsRefused
  exact ⟨exec_ne_refused, step_ne_refused⟩

/-! ## Ignored bits -/

/-- The ignored bits of RET stand in the record of its fault only. -/
theorem execRet_next_ignores (z z' : Nibble) {s t : State} (h : execRet z s = .next t) :
    execRet z' s = .next t := by
  obtain ⟨ra, u, hpop, rfl⟩ := execRet_eq_next h
  rw [execRet, hpop]

/-- Settles O49: the meanings of six instructions do not name the ignored bits; RET by `execRet_next_ignores`. -/
theorem ignoredBitsChangeNoState : Obligations.IgnoredBitsChangeNoState := by
  unfold Obligations.IgnoredBitsChangeNoState
  intro x y y' z z' a a' s
  exact ⟨rfl, rfl, rfl, rfl, rfl, rfl, fun t => ⟨execRet_next_ignores z z', execRet_next_ignores z' z⟩⟩

end Sys2Proof.Claims
end

section
/-! PROOFS. Families 0, 1, 2 and B: clear, return, no-op, jump, call, indexed jump (spec/40_family_0_1_2.md,
43_family_9_to_D.md R142), and a CALL with the RET after it (95_test_vectors.md S3). -/

namespace Sys2Proof.Claims

open Sys2Proof.Machine

/-! ## Frames of one instruction and of two in turn -/

/-- The frame of an instruction, for any list that holds what its row may write. -/
theorem exec_keepsAllBut {i : Instr} {s t : State} {W : List Part} (h : exec i s = .next t)
    (hW : .pc :: .result :: writtenBy i ⊆ W) : KeepsAllBut W s t :=
  keepsAllBut_of_same fun _ hp => exec_same h fun hw => hp (hW hw)

theorem keeps_trans {s t u : State} {p : Part} (h : s.keeps t p) (h' : t.keeps u p) : s.keeps u p := by
  cases p
  case stack => exact ⟨h'.1.trans h.1, fun k => (h'.2 k).trans (h.2 k)⟩
  case regs | keys | memory => exact fun k => (h' k).trans (h k)
  case screen => exact fun r c => (h' r c).trans (h r c)
  all_goals exact Eq.trans h' h

theorem keepsAllBut_trans {W : List Part} {s t u : State} (h : KeepsAllBut W s t)
    (h' : KeepsAllBut W t u) : KeepsAllBut W s u :=
  fun p hp => keeps_trans (h p hp) (h' p hp)

/-! ## CLS, NOP and the jumps -/

theorem cell_of_fb_blank {s : State} (h : s.fb = blankScreen) (r : Fin 32) (c : Fin 64) :
    s.cell r c = false := by
  simp [State.cell, h, blankScreen]

/-- Settles O14: the screen of CLS is `blankScreen`; `pc`, the outputs and the frame are those of every
instruction. -/
theorem clsBlanksScreen : Obligations.ClsBlanksScreen := by
  unfold Obligations.ClsBlanksScreen
  intro z s
  have h : exec (.cls z) s = .next { s with fb := blankScreen }.advanceRedraw := rfl
  exact ⟨_, h, cell_of_fb_blank rfl, exec_pc h, exec_result h, exec_keepsAllBut h (by simp [writtenBy])⟩

/-- Settles O16: the three complete from every state; `exec_pc` says where `pc` goes. -/
theorem nopAndJumpsMoveOnlyPc : Obligations.NopAndJumpsMoveOnlyPc := by
  unfold Obligations.NopAndJumpsMoveOnlyPc
  intro nnn s
  have hnop : exec (.nop nnn) s = .next s.advance := rfl
  have hjp : exec (.jp nnn) s = .next (s.finish (zext12 nnn) false) := rfl
  have hjpV0 : exec (.jpV0 nnn) s = .next (s.finish (indexedTarget (s.reg 0) nnn) false) := rfl
  exact ⟨⟨_, hnop, ⟨exec_pc hnop, exec_result hnop⟩, exec_keepsAllBut hnop (by simp [writtenBy])⟩,
    ⟨_, hjp, exec_pc hjp, exec_result hjp, exec_keepsAllBut hjp (by simp [writtenBy])⟩,
    ⟨_, hjpV0, exec_pc hjpV0, exec_result hjpV0, exec_keepsAllBut hjpV0 (by simp [writtenBy])⟩⟩

/-! ## RET and CALL -/

/-- 60_exceptions.md R183. -/
theorem exec_ret_fault {s : State} (z : Nibble) (h : s.sp.val = 0) :
    exec (.ret z) s = .fault (.stackUnderflow s.pc (encode (.ret z))) := by
  rw [exec, execRet, (State.pop_eq_none s).mpr h]
  rfl

theorem exec_ret_completes {s : State} (z : Nibble) (h : s.sp.val ≠ 0) : ∃ t, exec (.ret z) s = .next t := by
  cases hpop : s.pop with
  | none => exact absurd ((State.pop_eq_none s).mp hpop) h
  | some p => exact ⟨p.2.finish (p.1 + 2#16) false, by rw [exec, execRet, hpop]⟩

/-- 60_exceptions.md R182. -/
theorem exec_call_fault {s : State} (nnn : Addr12) (h : s.sp.val = stackDepth) :
    exec (.call nnn) s = .fault (.stackOverflow s.pc (encode (.call nnn))) := by
  rw [exec, execCall, (State.push_eq_none s s.pc).mpr h]
  rfl

theorem exec_call_completes {s : State} (nnn : Addr12) (h : s.sp.val < stackDepth) :
    ∃ t, exec (.call nnn) s = .next t := by
  cases hpush : s.push s.pc with
  | none => exact absurd ((State.push_eq_none s s.pc).mp hpush) (Nat.ne_of_lt h)
  | some u => exact ⟨u.finish (zext12 nnn) false, by rw [exec, execCall, hpush]⟩

/-- Settles O15: with an entry in use RET completes, and `execRet_eq_next_stackAt` says what it answers. -/
theorem retPopsReturnAddress : Obligations.RetPopsReturnAddress := by
  unfold Obligations.RetPopsReturnAddress
  intro z s
  refine ⟨exec_ret_fault z, fun k hk => ?_⟩
  obtain ⟨t, h⟩ := exec_ret_completes z (s := s) (by omega)
  obtain ⟨-, hsp, hstack, hresult, hpc⟩ := execRet_eq_next_stackAt h
  have hentry : Fin.ofNat 16 (s.sp.val - 1) = k := by rw [hk, Nat.add_sub_cancel, Fin.ofNat_val_eq_self]
  rw [hentry] at hpc
  refine ⟨t, h, by omega, ?_, fun j => ?_, hresult, exec_keepsAllBut h (by simp [writtenBy])⟩
  · rw [hpc, pc_add_two]
  · rw [State.stackAt, State.stackAt, hstack]

/-- Settles O17: with a free entry CALL completes, and `execCall_eq_next_stackAt` says what it answers. -/
theorem callPushesOwnAddress : Obligations.CallPushesOwnAddress := by
  unfold Obligations.CallPushesOwnAddress
  intro nnn s
  refine ⟨exec_call_fault nnn, fun k hk => ?_⟩
  obtain ⟨t, h⟩ := exec_call_completes nnn (hk ▸ k.isLt)
  obtain ⟨hsp, hresult, -, hstack⟩ := execCall_eq_next_stackAt h
  refine ⟨t, h, by rw [hsp, hk], ?_, fun j hj => ?_, exec_pc h, hresult,
    exec_keepsAllBut h (by simp [writtenBy])⟩
  · rw [hstack, if_pos hk.symm]
  · rw [hstack, if_neg (hk ▸ Fin.val_ne_of_ne hj)]

/-- Settles O18: the entry that RET returns through (`retPopsReturnAddress`) is the one CALL wrote
(`callPushesOwnAddress`), and it lies above every entry in use. -/
theorem callThenRetRoundTrip : Obligations.CallThenRetRoundTrip := by
  unfold Obligations.CallThenRetRoundTrip
  intro nnn z s hsp
  obtain ⟨t, hcall, htsp, htop, hbelow, -, -, hframe⟩ := (callPushesOwnAddress nnn s).2 ⟨s.sp.val, hsp⟩ rfl
  obtain ⟨u, hret, husp, hupc, hkept, -, hframe'⟩ := (retPopsReturnAddress z t).2 ⟨s.sp.val, hsp⟩ htsp
  rw [htop] at hupc
  refine ⟨t, hcall, u, hret, hupc, Fin.ext husp, fun k hk => ?_, keepsAllBut_trans hframe hframe'⟩
  rw [hkept, hbelow k (Fin.ne_of_lt hk)]

end Sys2Proof.Claims
end

section
/-! PROOFS. Families 3 to 7 and 9xyn: the skips that compare a register (spec/41_family_3_to_7.md R110 to R112,
43_family_9_to_D.md R140), and the load and the addition of an immediate (41_family_3_to_7.md R113, R114). -/

namespace Sys2Proof.Claims

open Sys2Proof.Machine

/-! ## Skips -/

theorem skipsWhen_skipIf (s : State) {c : Bool} {P : Prop} (hc : c = true ↔ P) :
    SkipsWhen P s (s.skipIf c) := by
  refine ⟨fun hP => ?_, fun hP => ?_, rfl⟩
  · rw [skipIf_pc_toNat, if_pos (hc.mpr hP)]
  · rw [skipIf_pc_toNat, if_neg (mt hc.mp hP)]

/-- An instruction that is a skip on `c`, which decides `P`. -/
theorem completes_skip {i : Instr} {s : State} {c : Bool} {P : Prop}
    (h : exec i s = .next (s.skipIf c)) (hc : c = true ↔ P) (hi : writtenBy i = []) :
    Completes i s fun t => SkipsWhen P s t ∧ OnlyPcMoves s t :=
  ⟨_, h, skipsWhen_skipIf s hc, exec_keepsAllBut h (by simp [hi])⟩

/-- Settles O19: both are a skip (`completes_skip`), on the comparison of `V[x]` with the immediate. -/
theorem skipsOnImmediate : Obligations.SkipsOnImmediate := by
  unfold Obligations.SkipsOnImmediate
  exact fun x nn s => ⟨completes_skip rfl beq_iff_eq rfl, completes_skip rfl bne_iff_ne rfl⟩

/-- Settles O20: both are a skip (`completes_skip`), on the comparison of `V[x]` with `V[y]`; the low nibble is in
neither meaning. -/
theorem skipsOnRegister : Obligations.SkipsOnRegister := by
  unfold Obligations.SkipsOnRegister
  exact fun x y z s => ⟨completes_skip rfl beq_iff_eq rfl, completes_skip rfl bne_iff_ne rfl⟩

/-! ## Instructions that write one register and no flag -/

/-- An instruction that puts `b` into `V[d]` and goes on to the next one. -/
theorem completes_writesReg {i : Instr} {s : State} {d : Reg} {b : Byte}
    (h : exec i s = .next (s.setReg d b).advance) (hi : writtenBy i = [.regs]) :
    Completes i s fun t => WritesReg s t d b := by
  refine ⟨_, h, ?written, fun r hr => ?others, ⟨pc_add_two s.pc, rfl⟩, exec_keepsAllBut h (by simp [hi])⟩
  case written => rw [State.advance_eq, State.finish_reg, State.reg_setReg_same]
  case others => rw [State.advance_eq, State.finish_reg, reg_setReg_of_ne s b hr]

theorem byte_add_eq_ofNat (a b : Byte) : a + b = BitVec.ofNat 8 ((a.toNat + b.toNat) % 256) :=
  BitVec.eq_of_toNat_eq (by simp)

/-- Settles O22: both write `V[x]` only (`completes_writesReg`); the sum of two bytes wraps (`byte_add_eq_ofNat`). -/
theorem loadAndAddImmediate : Obligations.LoadAndAddImmediate := by
  unfold Obligations.LoadAndAddImmediate
  intro x nn s
  refine ⟨completes_writesReg rfl rfl, ?_⟩
  rw [← byte_add_eq_ofNat]
  exact completes_writesReg rfl rfl

end Sys2Proof.Claims
end

section
/-! PROOFS. Family 8: the register ALU (spec/42_family_8_alu.md R120 to R128) and its reserved low nibbles (R130). -/

namespace Sys2Proof

/-! ## The reserved nibbles in the decoder (30_encoding.md R87) -/

theorem decodeWord_of_family8 {w : Word} (hf : w.family.toNat = 0x8) : decodeWord w = decodeFamily8 w := by
  simp only [decodeWord, hf]

theorem decodeFamily8_of_reserved {w : Word} (hn : w.n.toNat ∈ [0x8, 0x9, 0xA, 0xB, 0xC, 0xD, 0xF]) :
    decodeFamily8 w = .error (.reservedFamily8 w.n) := by
  unfold decodeFamily8
  split
  case h_10 => rfl
  all_goals next hdefined => exact absurd (hdefined ▸ hn) (by decide)

end Sys2Proof

namespace Sys2Proof.Machine

/-! ## The flags as propositions (10_state.md R22) -/

theorem carryOfAdd_iff (a b : Byte) : carryOfAdd a b = true ↔ 255 < a.toNat + b.toNat := decide_eq_true_iff

theorem strictlyGreater_iff (a b : Byte) : strictlyGreater a b = true ↔ b.toNat < a.toNat := decide_eq_true_iff

theorem bitOutRight_iff (a : Byte) : bitOutRight a = true ↔ a.toNat % 2 = 1 := by
  rw [bitOutRight, BitVec.getLsbD, Nat.testBit_zero, decide_eq_true_iff]

theorem bitOutLeft_iff (a : Byte) : bitOutLeft a = true ↔ a.toNat / 128 = 1 := by
  have := a.isLt
  rw [bitOutLeft, BitVec.getLsbD, Nat.testBit_eq_decide_div_mod_eq, decide_eq_true_iff]
  omega

/-! ## A cycle whose word does not decode -/

theorem State.cycle_undecoded {s : State} {w : Word} {r : Reject} (hf : s.fetch = .ok w)
    (hd : decodeWord w = .error r) : s.cycle = s.undecoded w r := by
  simp only [State.cycle, hf, hd]

theorem State.undecoded_reserved_nop {s : State} {n : Nibble} (w : Word) (h : n ∈ s.cfg.reserved8Nop) :
    s.undecoded w (.reservedFamily8 n) = .next s.advance :=
  if_pos h

theorem State.undecoded_reserved_fault {s : State} {n : Nibble} (w : Word) (h : n ∉ s.cfg.reserved8Nop) :
    s.undecoded w (.reservedFamily8 n) = .fault (.unknownInstruction s.pc w) :=
  if_neg h

end Sys2Proof.Machine

namespace Sys2Proof.Claims

open Sys2Proof.Machine

/-! ## Reserved nibbles -/

theorem fetch_of_wordAtPc {s : State} {w : Word} (h : WordAtPc s w) : s.fetch = .ok w := by
  obtain ⟨hpc, hw⟩ := h
  rw [← wordOfBytes_toNat] at hw
  rw [State.fetch_ok s hpc, BitVec.eq_of_toNat_eq hw]

/-- 42_family_8_alu.md R130: what the cycle does is left to `RESERVED_8_NOP`. -/
theorem cycle_of_reserved8 {s : State} {w : Word} (hw : WordAtPc s w) (hf : w.toNat / 4096 = 8)
    (hn : w.toNat % 16 ∈ [0x8, 0x9, 0xA, 0xB, 0xC, 0xD, 0xF]) :
    s.cycle = s.undecoded w (.reservedFamily8 (BitVec.ofNat 4 (w.toNat % 16))) := by
  rw [← Word.n_toNat] at hn ⊢
  have hdecode : decodeWord w = .error (.reservedFamily8 w.n) :=
    (decodeWord_of_family8 (w.family_toNat.trans hf)).trans (decodeFamily8_of_reserved hn)
  rw [State.cycle_undecoded (fetch_of_wordAtPc hw) hdecode, BitVec.ofNat_toNat, BitVec.setWidth_eq]

theorem keepsAllBut_advance (s : State) : KeepsAllBut [.pc, .result] s s.advance := by
  refine keepsAllBut_of_same fun p hp => ?_
  obtain ⟨hpc, hresult⟩ : p ≠ .pc ∧ p ≠ .result := by simpa using hp
  exact (State.same_refl s p).finish hpc hresult _ _

/-- Settles O13: the STEP is a cycle (`cycle_of_reserved8`), which `RESERVED_8_NOP` makes a no-op or a fault. -/
theorem reservedFamilyEightNibbles : Obligations.ReservedFamilyEightNibbles := by
  unfold Obligations.ReservedFamilyEightNibbles
  refine ⟨fun s k r rest w hw hf hn => ?_, rfl⟩
  have hstep : step (scheduled s (.step k r) rest) =
      (executing s k r rest).undecoded w (.reservedFamily8 (BitVec.ofNat 4 (w.toNat % 16))) :=
    cycle_of_reserved8 (s := executing s k r rest) hw hf hn
  constructor
  · intro hnop
    exact ⟨_, hstep.trans (State.undecoded_reserved_nop w hnop), ⟨pc_add_two s.pc, rfl⟩,
      keepsAllBut_advance _⟩
  · intro hfault
    exact hstep.trans (State.undecoded_reserved_fault w hfault)

/-! ## Moves and logic -/

/-- Settles O23: each of the four puts its value into `V[x]` and goes on (`completes_writesReg`). -/
theorem moveAndLogic : Obligations.MoveAndLogic := by
  unfold Obligations.MoveAndLogic
  exact fun x y s => ⟨completes_writesReg rfl rfl, completes_writesReg rfl rfl, completes_writesReg rfl rfl,
    completes_writesReg rfl rfl⟩

/-! ## Instructions that write a flag and a result -/

/-- An instruction that puts a flag into `V[15]`, then `b` into `V[d]`, and goes on to the next one. -/
theorem completes_writesRegAndFlag {i : Instr} {s : State} {d : Reg} {b : Byte} {flag : Bool} {result : Nat}
    {P : Prop} (h : exec i s = .next (s.writeFlagged flag d b).advance) (hb : b.toNat = result)
    (hflag : flag = true ↔ P) (hi : writtenBy i = [.regs]) :
    Completes i s fun t => WritesRegAndFlag s t d result P := by
  refine ⟨_, h, ?written, fun hd => ⟨fun hP => ?set, fun hP => ?cleared⟩, fun r hr hvf => ?others,
    ⟨pc_add_two s.pc, rfl⟩, exec_keepsAllBut h (by simp [hi])⟩
  all_goals rw [State.advance_eq, State.finish_reg]
  case written => rw [reg_writeFlagged_dst, hb]
  case set => rw [reg_writeFlagged_vf s _ _ hd, hflag.mpr hP]; rfl
  case cleared => rw [reg_writeFlagged_vf s _ _ hd, Bool.eq_false_of_not_eq_true (mt hflag.mp hP)]; rfl
  case others => rw [reg_writeFlagged_of_ne s _ _ hr hvf]

/-- Settles O24: `completes_writesRegAndFlag` with the sum of two bytes and its carry. -/
theorem addSetsCarry : Obligations.AddSetsCarry := by
  unfold Obligations.AddSetsCarry
  exact fun x y s => completes_writesRegAndFlag rfl (BitVec.toNat_add _ _) (carryOfAdd_iff _ _) rfl

/-- Settles O25: `completes_writesRegAndFlag` with the difference and the strict comparison; SUBN has the operands and
the destination exchanged. -/
theorem subtractionsSetStrictFlag : Obligations.SubtractionsSetStrictFlag := by
  unfold Obligations.SubtractionsSetStrictFlag
  exact fun x y s =>
    ⟨completes_writesRegAndFlag rfl (byte_sub_toNat _ _) (strictlyGreater_iff _ _) rfl,
      completes_writesRegAndFlag rfl (byte_sub_toNat _ _) (strictlyGreater_iff _ _) rfl⟩

theorem byte_shiftRight_one_toNat (a : Byte) : (a >>> 1).toNat = a.toNat / 2 := by
  rw [BitVec.toNat_ushiftRight, Nat.shiftRight_one]

theorem byte_shiftLeft_one_toNat (a : Byte) : (a <<< 1).toNat = a.toNat * 2 % 256 := by
  rw [BitVec.toNat_shiftLeft, Nat.shiftLeft_eq, Nat.pow_one]

/-- Settles O26: `completes_writesRegAndFlag` with `V[x]` shifted by one and the bit shifted out; `V[y]` is in neither
meaning. -/
theorem shiftsSetBitShiftedOut : Obligations.ShiftsSetBitShiftedOut := by
  unfold Obligations.ShiftsSetBitShiftedOut
  exact fun x y s =>
    ⟨completes_writesRegAndFlag rfl (byte_shiftRight_one_toNat _) (bitOutRight_iff _) rfl,
      completes_writesRegAndFlag rfl (byte_shiftLeft_one_toNat _) (bitOutLeft_iff _) rfl⟩

end Sys2Proof.Claims
end

section
/-! PROOFS. Families A, C and D: LD I (with LD F of family F), RND and the sprite (spec/43_family_9_to_D.md R141, R143,
R144, 45_family_F.md R165), and a sprite drawn twice (95_test_vectors.md S6). -/

namespace Sys2Proof.Claims

open Sys2Proof.Machine

/-! ## The sprite -/

/-- The screen and the flag that DRW works out from the state at the start of the STEP. -/
def spriteDrawing (x y : Reg) (n : Nibble) (s : State) : Drawing :=
  drawSprite (s.reg x).toNat (s.reg y).toNat (s.bytesFrom s.i.toNat n.toNat) s.fb

theorem exec_drw_ok {x y : Reg} {n : Nibble} {s : State} (h : n.toNat = 0 ∨ s.i.toNat + n.toNat ≤ memSize) :
    exec (.drw x y n) s = .next ({ s with fb := (spriteDrawing x y n s).fb }.setReg vf
      (flagByte (spriteDrawing x y n s).hit)).advanceRedraw :=
  accessing_ok _ s _ _ _ h

theorem exec_drw_fault {x y : Reg} {n : Nibble} {s : State} (hn : n.toNat ≠ 0)
    (h : memSize < s.i.toNat + n.toNat) :
    exec (.drw x y n) s =
      .fault (.memoryOutOfRange s.pc (some (encode (.drw x y n))) (max s.i.toNat memSize)) :=
  accessing_fault _ s _ _ _ hn h

/-- The bit that the blit draws from the bytes it read is the pixel of R144. -/
theorem spriteBit_bytesFrom (x y : Reg) (n : Nibble) (s : State) (r : Fin 32) (c : Fin 64) :
    spriteBit (s.reg x).toNat (s.reg y).toNat (s.bytesFrom s.i.toNat n.toNat) r c = SpritePixel s x y n r c := by
  rw [spriteBit, SpritePixel, State.bytesFrom_length, List.getD_eq_getElem?_getD, State.bytesFrom_getElem?]
  by_cases hrow : (s.reg y).toNat ≤ r.val ∧ r.val < (s.reg y).toNat + n.toNat
  · rw [if_pos (by omega), Option.getD_some]
  · have hout {p : Prop} : ¬ ((s.reg y).toNat ≤ r.val ∧ r.val < (s.reg y).toNat + n.toNat ∧ p) :=
      fun h => hrow ⟨h.1, h.2.1⟩
    rw [decide_eq_false hout, Bool.false_and, Bool.false_and]

theorem spriteDrawing_cell (x y : Reg) (n : Nibble) (s : State) (r : Fin 32) (c : Fin 64) :
    (spriteDrawing x y n s).cell r c = (s.cell r c ^^ SpritePixel s x y n r c) := by
  rw [spriteDrawing, drawSprite, drawRows_cell, spriteBit_bytesFrom]
  rfl

theorem spriteDrawing_hit (x y : Reg) (n : Nibble) (s : State) :
    (spriteDrawing x y n s).hit = true ↔ ∃ r c, SpritePixel s x y n r c = true ∧ s.cell r c = true := by
  rw [spriteDrawing, drawSprite, drawRows_hit]
  simp only [Bool.false_eq_true, false_or, spriteBit_bytesFrom, and_comm]
  rfl

/-- Settles O31: the cells and the flag are those of `spriteDrawing`; `pc`, the outputs and the frame are those of every
instruction. -/
theorem drawXorsClippedSprite : Obligations.DrawXorsClippedSprite := by
  unfold Obligations.DrawXorsClippedSprite
  intro x y n s
  refine ⟨fun hin => ?completes, fun hn hout => exec_drw_fault (by omega) (by simp only [memSize]; omega)⟩
  have h := exec_drw_ok (x := x) (y := y) (n := n) (s := s) (by simp only [memSize]; omega)
  refine ⟨_, h, spriteDrawing_cell x y n s, fun hhit => ?set, fun hmiss => ?cleared, fun r hr => ?others,
    exec_pc h, exec_result h, exec_keepsAllBut h (by simp [writtenBy])⟩
  all_goals rw [State.advanceRedraw_eq, State.finish_reg]
  case set => rw [State.reg_setReg_same, (spriteDrawing_hit x y n s).mpr hhit]; rfl
  case cleared =>
    rw [State.reg_setReg_same, Bool.eq_false_of_not_eq_true (mt (spriteDrawing_hit x y n s).mp hmiss)]
    rfl
  case others => exact reg_setReg_of_ne _ _ hr

/-! ## A sprite drawn twice -/

/-- DRW leaves what a sprite is drawn from, where neither coordinate register is `V[15]`. -/
theorem spritePixel_exec_drw {x y : Reg} {n : Nibble} {s t : State} (h : exec (.drw x y n) s = .next t)
    (hx : x ≠ 15) (hy : y ≠ 15) : SpritePixel t x y n = SpritePixel s x y n := by
  have hregX : t.reg x = s.reg x := exec_reg h id fun hf => hx hf.1
  have hregY : t.reg y = s.reg y := exec_reg h id fun hf => hy hf.1
  have hi : t.i = s.i := exec_same (p := .index) h (by simp [writtenBy])
  obtain ⟨hmem, hcfg⟩ : s.same t .memory := exec_same h (by simp [writtenBy])
  funext r c
  simp only [SpritePixel, State.byteAt, hregX, hregY, hi, hmem, hcfg]

/-- A byte that is 1 where `P` holds and 0 where it does not says whether `P` holds. -/
theorem flag_iff {P : Prop} {b : Byte} (hset : P → b = 1) (hcleared : ¬ P → b = 0) :
    (P ↔ b = 1) ∧ (¬ P ↔ b = 0) := by
  by_cases hP : P
  · simp [hP, hset hP]
  · simp [hP, hcleared hP]

/-- Settles O32: both drawings are those of `drawXorsClippedSprite` with the same pixels (`spritePixel_exec_drw`). A
pixel XORed twice cancels, and it meets a lit cell the second time where it lit a dark one the first time. -/
theorem drawTwiceRestoresScreen : Obligations.DrawTwiceRestoresScreen := by
  unfold Obligations.DrawTwiceRestoresScreen
  intro x y n s hx hy hin
  obtain ⟨t, h, hcell, -, -, -, -, -, hframe⟩ := (drawXorsClippedSprite x y n s).1 hin
  have hi : t.i = s.i := hframe .index (by decide)
  obtain ⟨u, h', hcell', hset, hcleared, -⟩ := (drawXorsClippedSprite x y n t).1 (by rwa [hi])
  rw [spritePixel_exec_drw h hx hy] at hcell' hset hcleared
  have hlit (r : Fin 32) (c : Fin 64) :
      (SpritePixel s x y n r c = true ∧ t.cell r c = true) ↔ (s.cell r c = false ∧ t.cell r c = true) := by
    rw [hcell]
    cases s.cell r c <;> cases SpritePixel s x y n r c <;> decide
  simp only [hlit] at hset hcleared
  refine ⟨t, h, u, h', fun r c => ?restored, flag_iff hset hcleared⟩
  case restored => rw [hcell', hcell, Bool.xor_assoc, Bool.xor_self, Bool.xor_false]

/-! ## RND -/

/-- Settles O27: RND puts the mask of the input byte into `V[x]` and goes on (`completes_writesReg`). -/
theorem rndMasksInputByte : Obligations.RndMasksInputByte := by
  unfold Obligations.RndMasksInputByte
  rintro x nn r s rfl
  exact completes_writesReg rfl rfl

/-! ## Instructions that write the index register only -/

/-- An instruction that puts `w` into `I` and goes on to the next one. -/
theorem completes_writesIndex {i : Instr} {s : State} {w : Word} {value : Nat}
    (h : exec i s = .next { s with i := w }.advance) (hw : w.toNat = value) (hi : writtenBy i = [.index]) :
    Completes i s fun t => t.i.toNat = value ∧ Advances s t ∧ KeepsAllBut [.index, .pc, .result] s t :=
  ⟨_, h, hw, ⟨pc_add_two s.pc, rfl⟩, exec_keepsAllBut h (by simp [hi])⟩

/-- 45_family_F.md R165: five times a byte never wraps. -/
theorem fontAddress_toNat (a : Byte) : (fontAddress a).toNat = a.toNat * 5 := by
  have := a.isLt
  rw [fontAddress, BitVec.toNat_ofNat]
  omega

/-- Settles O29: both write `I` only (`completes_writesIndex`), LD F the font address of the whole byte `V[x]`. -/
theorem setIndexAndFontAddress : Obligations.SetIndexAndFontAddress := by
  unfold Obligations.SetIndexAndFontAddress
  exact ⟨fun nnn s => completes_writesIndex rfl (zext12_toNat nnn) rfl,
    fun x s => completes_writesIndex rfl (fontAddress_toNat (s.reg x)) rfl⟩

end Sys2Proof.Claims
end

section
/-! PROOFS. Family E: the skips on the level of a key (spec/44_family_E_keys.md R150, R151). -/

namespace Sys2Proof.Claims

open Sys2Proof.Machine

theorem skipOnKey_of_reg_eq {s : State} {x : Reg} {k : Fin 16} (hk : (s.reg x).toNat = k.val) (i : Instr)
    (level : Bool) : s.skipOnKey i x level = .next (s.skipIf (s.key k == level)) := by
  have hlt : (s.reg x).toNat < nKeys := hk ▸ k.isLt
  obtain rfl : ⟨(s.reg x).toNat, hlt⟩ = k := Fin.ext hk
  exact State.skipOnKey_ok s i x level hlt

/-- Settles O21: on a key both are a skip (`completes_skip`) on its level (`skipOnKey_of_reg_eq`); above the last key
both answer the fault (`State.skipOnKey_fault`). -/
theorem skipsOnKey : Obligations.SkipsOnKey := by
  unfold Obligations.SkipsOnKey
  refine fun x s => ⟨fun k hk => ?onKey, fun habove => ?aboveLastKey⟩
  case onKey =>
    exact ⟨completes_skip (skipOnKey_of_reg_eq hk (.skp x) true) beq_iff_eq rfl,
      completes_skip (skipOnKey_of_reg_eq hk (.sknp x) false) beq_iff_eq rfl⟩
  case aboveLastKey =>
    have hnone : ¬ (s.reg x).toNat < nKeys := Nat.not_lt.mpr habove
    exact ⟨State.skipOnKey_fault s (.skp x) x true hnone, State.skipOnKey_fault s (.sknp x) x false hnone⟩

end Sys2Proof.Claims
end

section
/-! PROOFS. Family F: the timer moves (spec/45_family_F.md R160, R162, R163), the key wait (R161), ADD I (R164), and the
three that touch memory from `I` on: LD B, the register dump and the register load (R166 to R168). -/

namespace Sys2Proof.Machine

/-! ## The key wait -/

/-- 45_family_F.md R161: the key delivered is the lowest one that is down. -/
theorem firstKey_of_lowest {s : State} {k : Fin 16} (hdown : s.key k = true)
    (hlowest : ∀ j, j < k → s.key j = false) : firstKey s.kb = some (BitVec.ofNat 8 k.val) := by
  have hindex : s.kb.toList.findIdx? id = some k.val := by
    refine List.findIdx?_eq_some_iff_getElem.mpr ⟨by simp, hdown, fun j hj => ?_⟩
    exact Bool.eq_false_iff.mp (hlowest ⟨j, hj.trans k.isLt⟩ hj)
  rw [firstKey, hindex, Option.map_some]

theorem exec_ldVxK_of_lowest {x : Reg} {s : State} {k : Fin 16} (hpressed : s.inputs.keyPressed = true)
    (hdown : s.key k = true) (hlowest : ∀ j, j < k → s.key j = false) :
    exec (.ldVxK x) s = .next (s.setReg x (BitVec.ofNat 8 k.val)).advance := by
  rw [exec, execLdVxK, firstKey_of_lowest hdown hlowest]
  exact congrArg Host.Outcome.next (if_pos hpressed)

/-! ## Runs of bytes from `I` on -/

theorem bcdDigits_length (a : Byte) : (bcdDigits a).length = 3 := rfl

theorem State.regsUpTo_length (s : State) (x : Reg) : (s.regsUpTo x).length = x.val + 1 := by
  rw [State.regsUpTo, List.length_take, Vector.length_toList]
  omega

/-- 45_family_F.md R168: which byte a register load puts into each register it loads. -/
theorem State.reg_loadRegs_bytesFrom (s : State) (base : Nat) {x r : Reg} (hr : r ≤ x) :
    (s.loadRegs 0 (s.bytesFrom base (x.val + 1))).reg r = s.byteAt (base + r.val) := by
  rw [State.reg_loadRegs, if_pos (Nat.zero_le _), Nat.sub_zero, State.bytesFrom_getElem?,
    if_pos (Nat.lt_succ_of_le hr), Option.getD_some]

section
variable {x : Reg} {s : State}

theorem exec_ldB_ok (h : s.i.toNat + 2 < memSize) :
    exec (.ldB x) s = .next (s.storeBytes s.i.toNat (bcdDigits (s.reg x))).advance :=
  accessing_ok _ s _ _ _ (.inr h)

theorem exec_ldB_fault (h : memSize ≤ s.i.toNat + 2) :
    exec (.ldB x) s = .fault (.memoryOutOfRange s.pc (some (encode (.ldB x))) (max s.i.toNat memSize)) :=
  accessing_fault _ s _ _ _ (Nat.succ_ne_zero _) (Nat.lt_succ_of_le h)

theorem exec_stRegs_fault (h : memSize ≤ s.i.toNat + x.val) :
    exec (.stRegs x) s =
      .fault (.memoryOutOfRange s.pc (some (encode (.stRegs x))) (max s.i.toNat memSize)) :=
  accessing_fault _ s _ _ _ (Nat.succ_ne_zero _) (Nat.lt_succ_of_le h)

theorem exec_ldRegs_ok (h : s.i.toNat + x.val < memSize) :
    exec (.ldRegs x) s = .next (s.loadRegs 0 (s.bytesFrom s.i.toNat (x.val + 1))).advance :=
  accessing_ok _ s _ _ _ (.inr h)

theorem exec_ldRegs_fault (h : memSize ≤ s.i.toNat + x.val) :
    exec (.ldRegs x) s =
      .fault (.memoryOutOfRange s.pc (some (encode (.ldRegs x))) (max s.i.toNat memSize)) :=
  accessing_fault _ s _ _ _ (Nat.succ_ne_zero _) (Nat.lt_succ_of_le h)

end

end Sys2Proof.Machine

namespace Sys2Proof.Claims

open Sys2Proof.Machine

/-! ## The timers and the key wait -/

/-- Settles O33: LD Vx, DT writes `V[x]` only (`completes_writesReg`), the other two one timer each. -/
theorem timerMoves : Obligations.TimerMoves := by
  unfold Obligations.TimerMoves
  intro x s
  have hdelay : exec (.ldDtVx x) s = .next { s with dt := s.reg x }.advance := rfl
  have hsound : exec (.ldStVx x) s = .next { s with st := s.reg x }.advance := rfl
  refine ⟨completes_writesReg rfl rfl, ⟨_, hdelay, rfl, ⟨exec_pc hdelay, exec_result hdelay⟩, ?delayFrame⟩,
    ⟨_, hsound, rfl, ⟨exec_pc hsound, exec_result hsound⟩, ?soundFrame⟩⟩
  case delayFrame => exact exec_keepsAllBut hdelay (by simp [writtenBy])
  case soundFrame => exact exec_keepsAllBut hsound (by simp [writtenBy])

theorem exec_ldVxK_waits (x : Reg) {s : State} (h : ¬ KeyDelivered s) :
    exec (.ldVxK x) s = .next s.wait := by
  obtain ⟨hdelivered, -⟩ | ⟨-, hwait⟩ := execLdVxK_eq_next_delivered (x := x) (s := s) rfl
  · exact absurd hdelivered h
  · exact congrArg Host.Outcome.next hwait

theorem keepsAllBut_wait (s : State) : KeepsAllBut [.result] s s.wait :=
  keepsAllBut_of_same fun p hp => (State.same_refl s p).wait (by simpa using hp)

/-- Settles O34: a press with a key down writes `V[x]` only, with the lowest such key (`exec_ldVxK_of_lowest`); else
the STEP waits (`exec_ldVxK_waits`). -/
theorem keyWaitDeliversLowestKeyOrWaits : Obligations.KeyWaitDeliversLowestKeyOrWaits := by
  unfold Obligations.KeyWaitDeliversLowestKeyOrWaits
  refine fun x s => ⟨fun hpressed k hdown hlowest => ?delivers, fun hnone => ?waits⟩
  case delivers => exact completes_writesReg (exec_ldVxK_of_lowest hpressed hdown hlowest) rfl
  case waits =>
    have hundelivered : ¬ KeyDelivered s := by
      rintro ⟨hpressed, k, hdown⟩
      obtain hunpressed | hup := hnone
      · exact absurd hpressed (Bool.eq_false_iff.mp hunpressed)
      · exact absurd hdown (Bool.eq_false_iff.mp (hup k))
    exact ⟨_, exec_ldVxK_waits x hundelivered, State.wait_result s, keepsAllBut_wait s⟩

/-! ## ADD I -/

/-- Settles O30: the sum wraps in the 16 bits of `I`, and `V[15]` is written last, with the carry out of them. -/
theorem addIndexSetsSixteenBitCarry : Obligations.AddIndexSetsSixteenBitCarry := by
  unfold Obligations.AddIndexSetsSixteenBitCarry
  intro x s
  have h : exec (.addI x) s = .next ({ s with i := s.i + zext8 (s.reg x) }.setReg vf
    (flagByte (carryOfIndex s.i (s.reg x)))).advance := rfl
  refine ⟨_, h, ?index, ?carry, fun r hr => ?others, ⟨exec_pc h, exec_result h⟩,
    exec_keepsAllBut h (by simp [writtenBy])⟩
  case index => rw [State.advance_eq, State.finish_i, State.setReg_i, BitVec.toNat_add, zext8_toNat]
  case carry =>
    rw [State.advance_eq, State.finish_reg, State.reg_setReg_same, carryOfIndex, flagByte_decide_toNat]
  case others => exact exec_reg h not_false fun hflag => hr hflag.1

/-! ## LD B, the register dump and the register load -/

/-- An instruction that stores `bs` from `I` on, inside the memory, and goes on to the next one. -/
theorem completes_stores {i : Instr} {s : State} {bs : List Byte} (hwf : Memory.wf s.cfg.font s.mem)
    (h : exec i s = .next (s.storeBytes s.i.toNat bs).advance) (hin : s.i.toNat + bs.length ≤ memSize)
    (hi : writtenBy i = [.memory]) :
    Completes i s fun t =>
      (∀ k, k < bs.length → t.readByte (s.i.toNat + k) = bs[k]?) ∧
      (∀ a, a < s.i.toNat ∨ s.i.toNat + bs.length ≤ a → t.readByte a = s.readByte a) ∧
      Advances s t ∧ KeepsAllBut [.memory, .pc, .result] s t := by
  have hread := State.readByte_storeBytes s hwf.1 hin
  refine ⟨_, h, fun k hk => (hread _).trans ?stored, fun a ha => (hread a).trans ?outside,
    ⟨pc_add_two s.pc, rfl⟩, exec_keepsAllBut h (by simp [hi])⟩
  case stored => rw [if_pos (by omega), Nat.add_sub_cancel_left]
  case outside => exact if_neg (by omega)

/-- Settles O35: LD B stores the three digits (`completes_stores`), or faults. -/
theorem bcdStoresThreeDigits : Obligations.BcdStoresThreeDigits := by
  unfold Obligations.BcdStoresThreeDigits
  refine fun x s hwf => ⟨fun hin => ?completes, exec_ldB_fault⟩
  obtain ⟨t, ht, hdigit, hkept, hrest⟩ := completes_stores hwf (exec_ldB_ok hin) hin rfl
  rw [bcdDigits_length] at hdigit hkept
  exact ⟨t, ht, hdigit 0 (by decide), hdigit 1 (by decide), hdigit 2 (by decide), hkept, hrest⟩

/-- Settles O36: the dump stores the registers up to `x` (`completes_stores`), or faults. -/
theorem registerDumpStoresInclusive : Obligations.RegisterDumpStoresInclusive := by
  unfold Obligations.RegisterDumpStoresInclusive
  refine fun x s hwf => ⟨fun hin => ?completes, exec_stRegs_fault⟩
  obtain ⟨t, ht, hstored, hkept, hrest⟩ :=
    completes_stores hwf (exec_stRegs_ok hin) (by rw [State.regsUpTo_length]; exact hin) rfl
  rw [State.regsUpTo_length] at hstored hkept
  refine ⟨t, ht, fun r hr => ?_, hkept, hrest⟩
  rw [hstored r.val (Nat.lt_succ_of_le hr), State.regsUpTo_getElem?, dif_pos (Fin.le_def.mp hr)]

/-- Settles O37: a register up to `x` holds its byte (`State.reg_loadRegs_bytesFrom`), and one above is no destination
of the load (`exec_reg`). -/
theorem registerLoadReadsInclusive : Obligations.RegisterLoadReadsInclusive := by
  unfold Obligations.RegisterLoadReadsInclusive
  refine fun x s => ⟨fun hin => ?completes, exec_ldRegs_fault⟩
  have h := exec_ldRegs_ok hin
  refine ⟨_, h, fun r hr => ?loaded, fun r hr => ?above, ⟨exec_pc h, exec_result h⟩,
    exec_keepsAllBut h (by simp [writtenBy])⟩
  case loaded =>
    rw [State.advance_eq, State.finish_reg, State.reg_loadRegs_bytesFrom s _ hr, State.readByte,
      if_pos (Nat.lt_of_le_of_lt (Nat.add_le_add_left hr _) hin)]
  case above => exact exec_reg h (Nat.not_le.mpr hr) fun hflag => hflag.2

/-- Settles O38: the load reads at the `I` the dump kept the bytes the dump stored there. -/
theorem dumpThenLoadRestoresRegisters : Obligations.DumpThenLoadRestoresRegisters := by
  unfold Obligations.DumpThenLoadRestoresRegisters
  intro x s v hwf hin
  obtain ⟨t, ht, hstored, -, -, hframe⟩ := (registerDumpStoresInclusive x s hwf).1 hin
  have hi : t.i = s.i := hframe .index (by decide)
  obtain ⟨u, hu, hloaded, habove, -⟩ := (registerLoadReadsInclusive x { t with v := v }).1 (hi ▸ hin)
  refine ⟨t, ht, u, hu, fun r hr => Option.some.inj ?restored, habove⟩
  calc some (u.reg r)
    _ = t.readByte (t.i.toNat + r.val) := (hloaded r hr).symm
    _ = some (s.reg r) := by rw [hi, hstored r hr]

end Sys2Proof.Claims
end

section
/-! PROOFS. The faults of a STEP (spec/60_exceptions.md R180 to R191): when an instruction faults at execute, which
words are no instruction, and from both when a STEP with a word at `pc` faults. -/

namespace Sys2Proof

/-! ## The undefined low bytes in the decoder (30_encoding.md R88, R89) -/

theorem decodeFamilyE_of_undefined {w : Word} (hnn : w.nn.toNat ∉ [0x9E, 0xA1]) :
    decodeFamilyE w = .error (.undefinedFamilyE w.nn) := by
  unfold decodeFamilyE
  split
  case h_3 => rfl
  all_goals next hdefined => exact absurd (hdefined ▸ hnn) (by decide)

theorem decodeFamilyF_of_undefined {w : Word}
    (hnn : w.nn.toNat ∉ [0x07, 0x0A, 0x15, 0x18, 0x1E, 0x29, 0x33, 0x55, 0x65]) :
    decodeFamilyF w = .error (.undefinedFamilyF w.nn) := by
  unfold decodeFamilyF
  split
  case h_10 => rfl
  all_goals next hdefined => exact absurd (hdefined ▸ hnn) (by decide)

theorem decodeWord_of_familyE {w : Word} (hf : w.family.toNat = 0xE) : decodeWord w = decodeFamilyE w := by
  simp only [decodeWord, hf]

theorem decodeWord_of_familyF {w : Word} (hf : w.family.toNat = 0xF) : decodeWord w = decodeFamilyF w := by
  simp only [decodeWord, hf]

/-- 30_encoding.md R87: the low nibbles of family 8 are the nine defined ones and the seven reserved ones. -/
theorem reserved_of_undefined_nibble :
    ∀ n : Nibble, n ∉ [0x0#4, 0x1#4, 0x2#4, 0x3#4, 0x4#4, 0x5#4, 0x6#4, 0x7#4, 0xE#4] →
      n.toNat ∈ [0x8, 0x9, 0xA, 0xB, 0xC, 0xD, 0xF] := by
  decide

end Sys2Proof

namespace Sys2Proof.Claims

open Sys2Proof.Machine

/-! ## Faults at execute -/

/-- An outcome that is one fault under a condition and a next state without it. -/
theorem eq_fault_iff_ite {o : Outcome} {g f : Fault} {p : Prop} [Decidable p] (hfault : p → o = .fault g)
    (hnext : ¬ p → ∃ t, o = .next t) : o = .fault f ↔ (if p then some g else none) = some f := by
  by_cases hp : p
  · rw [hfault hp, if_pos hp, Host.Outcome.fault.injEq, Option.some.injEq]
  · obtain ⟨t, ht⟩ := hnext hp
    rw [ht, if_neg hp]
    exact ⟨nofun, nofun⟩

theorem skipOnKey_eq_fault_iff (s : State) (i : Instr) (x : Reg) (level : Bool) (f : Fault) :
    s.skipOnKey i x level = .fault f ↔
      (if 15 < (s.reg x).toNat then some (.keyIndexOutOfRange s.pc (encode i) (s.reg x).toNat)
        else none) = some f :=
  eq_fault_iff_ite (fun h => State.skipOnKey_fault s i x level (Nat.not_lt.mpr h))
    (fun h => ⟨_, State.skipOnKey_ok s i x level (Nat.lt_succ_of_le (Nat.not_lt.mp h))⟩)

theorem accessing_eq_fault_iff (i : Instr) (s : State) (base len : Nat) (after : State) (f : Fault) :
    accessing i s base len after = .fault f ↔
      (if 1 ≤ len ∧ 4096 ≤ base + len - 1 then
        some (.memoryOutOfRange s.pc (some (encode i)) (max base 4096)) else none) = some f :=
  eq_fault_iff_ite (fun h => accessing_fault i s base len after (by omega) (by simp only [memSize]; omega))
    (fun h => ⟨_, accessing_ok i s base len after (by simp only [memSize]; omega)⟩)

/-- One case for each condition of 60_exceptions.md R182, R183, R185 (b) to (d) and R186. -/
theorem exec_eq_fault_iff (i : Instr) (s : State) (f : Fault) :
    exec i s = .fault f ↔ executeFault i s = some f := by
  cases i
  case call nnn =>
    exact eq_fault_iff_ite (exec_call_fault nnn) fun h =>
      exec_call_completes nnn (Nat.lt_of_le_of_ne (Nat.le_of_lt_succ s.sp.isLt) h)
  case ret z => exact eq_fault_iff_ite (exec_ret_fault z) (exec_ret_completes z)
  case skp | sknp => exact skipOnKey_eq_fault_iff s _ _ _ f
  case drw | ldB | stRegs | ldRegs => exact accessing_eq_fault_iff _ s _ _ _ f
  all_goals exact ⟨nofun, nofun⟩

/-- Settles O41: `exec_eq_fault_iff`. -/
theorem executeFaultsExactly : Obligations.ExecuteFaultsExactly := by
  unfold Obligations.ExecuteFaultsExactly
  exact exec_eq_fault_iff

theorem executeFault_ne_unknownInstruction (i : Instr) (s : State) (pc w : Word) :
    executeFault i s ≠ some (.unknownInstruction pc w) := by
  unfold executeFault
  split
  case h_9 => nofun
  all_goals split_ifs <;> nofun

/-! ## Words that are no instruction -/

theorem decodeWord_of_illegalWord {cfg : Config} {w : Word} (h : IllegalWord cfg w) :
    ∃ reject, decodeWord w = .error reject := by
  unfold IllegalWord at h
  rw [← Word.family_toNat, ← Word.nn_toNat, ← Word.n_toNat] at h
  obtain ⟨hf, hnn⟩ | ⟨hf, hnn⟩ | ⟨hf, hn, -⟩ := h
  · exact ⟨_, (decodeWord_of_familyE hf).trans (decodeFamilyE_of_undefined hnn)⟩
  · exact ⟨_, (decodeWord_of_familyF hf).trans (decodeFamilyF_of_undefined hnn)⟩
  · exact ⟨_, (decodeWord_of_family8 hf).trans (decodeFamily8_of_reserved hn)⟩

/-- 30_encoding.md R91 (a): the decoder's reason is a fault under the parameters `cfg`, not the no-op of R130. -/
def RaisesUnder (cfg : Config) : Reject → Prop
  | .reservedFamily8 n => n ∉ cfg.reserved8Nop
  | .truncated | .undefinedFamilyE _ | .undefinedFamilyF _ => True

theorem undecoded_eq_fault_iff (s : State) (w : Word) (reject : Reject) (f : Fault) :
    s.undecoded w reject = .fault f ↔ RaisesUnder s.cfg reject ∧ f = .unknownInstruction s.pc w := by
  have hraise : raise (.unknownInstruction s.pc w) = .fault f ↔ f = .unknownInstruction s.pc w := by
    rw [raise, Host.Outcome.fault.injEq, eq_comm]
  cases reject
  case reservedFamily8 n =>
    by_cases hn : n ∈ s.cfg.reserved8Nop
    · rw [State.undecoded_reserved_nop w hn]
      exact ⟨nofun, fun h => absurd hn h.1⟩
    · rw [State.undecoded_reserved_fault w hn]
      exact hraise.trans (iff_and_self.mpr fun _ => hn)
  all_goals exact hraise.trans (and_iff_right trivial).symm

theorem illegalWord_iff_of_refuses {cfg : Config} {w : Word} {reject : Reject} (h : reject.Refuses w) :
    IllegalWord cfg w ↔ RaisesUnder cfg reject := by
  unfold IllegalWord
  rw [← Word.family_toNat, ← Word.nn_toNat, ← Word.n_toNat]
  cases reject
  case truncated => exact h.elim
  case undefinedFamilyE | undefinedFamilyF =>
    obtain ⟨-, hf, hnn⟩ := h
    simpa [RaisesUnder, hf, BitVec.toNat_eq] using hnn
  case reservedFamily8 =>
    obtain ⟨rfl, hf, hn⟩ := h
    have hreserved := reserved_of_undefined_nibble w.n hn
    simp [RaisesUnder, hf, hreserved]

/-! ## Faults of a STEP -/

theorem wordAtPc_of_lt {s : State} (h : s.pc.toNat + 1 < memSize) :
    WordAtPc s (wordOfBytes (s.byteAt s.pc.toNat) (s.byteAt (s.pc.toNat + 1))) :=
  ⟨h, wordOfBytes_toNat _ _⟩

/-- 30_encoding.md R83 steps 2 and 3: a cycle past fetch faults at decode on an illegal word, and else as its
instruction does at execute. -/
theorem cycle_eq_fault_iff {s : State} {w : Word} (hw : WordAtPc s w) (f : Fault) :
    s.cycle = .fault f ↔
      (IllegalWord s.cfg w ∧ f = .unknownInstruction s.pc w) ∨
        ∃ i, decodeWord w = .ok i ∧ executeFault i s = some f := by
  have hfetch := fetch_of_wordAtPc hw
  cases hdecode : decodeWord w with
  | ok i =>
    have hlegal : ¬ IllegalWord s.cfg w := by
      intro hillegal
      obtain ⟨reject, hreject⟩ := decodeWord_of_illegalWord hillegal
      exact nomatch hdecode.symm.trans hreject
    rw [State.cycle_exec hfetch hdecode, exec_eq_fault_iff]
    simp [hlegal]
  | error reject =>
    rw [State.cycle_undecoded hfetch hdecode, undecoded_eq_fault_iff,
      illegalWord_iff_of_refuses (refuses_of_decodeWord hdecode)]
    simp

theorem executeFault_executing (i : Instr) (s : State) (k : Bool) (r : Byte) (rest : List HostOp) :
    executeFault i (executing s k r rest) = executeFault i s := by
  cases i <;> rfl

/-- A scheduled STEP past fetch faults on what `s` holds, whatever its inputs and the rest of the schedule are. -/
theorem step_scheduled_eq_fault_iff {s : State} {w : Word} (hw : WordAtPc s w) (k : Bool) (r : Byte)
    (rest : List HostOp) (f : Fault) :
    step (scheduled s (.step k r) rest) = .fault f ↔
      (IllegalWord s.cfg w ∧ f = .unknownInstruction s.pc w) ∨
        ∃ i, decodeWord w = .ok i ∧ executeFault i s = some f := by
  simp only [← executeFault_executing _ s k r rest]
  exact cycle_eq_fault_iff (s := executing s k r rest) hw f

/-- Settles O12: of the two ways a STEP faults past fetch (`step_scheduled_eq_fault_iff`), the one at execute is no
UnknownInstruction. -/
theorem unknownInstructionExactlyIllegalWords : Obligations.UnknownInstructionExactlyIllegalWords := by
  unfold Obligations.UnknownInstructionExactlyIllegalWords
  intro s k r rest w hw
  rw [step_scheduled_eq_fault_iff hw]
  simp [executeFault_ne_unknownInstruction]

/-- Settles O50: at fetch the fault is that of `pc` (`fetchOutOfRangeFaults`); past it, whether a STEP faults does not
speak of its inputs or of the schedule (`step_scheduled_eq_fault_iff`). -/
theorem faultRepeatsOnTheNextStep : Obligations.FaultRepeatsOnTheNextStep := by
  unfold Obligations.FaultRepeatsOnTheNextStep
  intro s k k' r r' rest rest' f h
  by_cases hpc : s.pc.toNat + 1 < memSize
  · have hw := wordAtPc_of_lt hpc
    exact (step_scheduled_eq_fault_iff hw k' r' rest' f).mpr ((step_scheduled_eq_fault_iff hw k r rest f).mp h)
  · have hout : 4095 ≤ s.pc.toNat := Nat.le_of_succ_le_succ (Nat.le_of_not_lt hpc)
    rw [fetchOutOfRangeFaults s k r rest hout] at h
    exact (fetchOutOfRangeFaults s k' r' rest' hout).trans h

/-- Settles O51: the records evaluated. -/
theorem faultRecordsCarryCodes : Obligations.FaultRecordsCarryCodes := by
  unfold Obligations.FaultRecordsCarryCodes
  exact fun _ _ _ _ => ⟨rfl, rfl, rfl, rfl, rfl, rfl⟩

end Sys2Proof.Claims
end

section
/-! PROOFS. The end of a run: a jump to itself (spec/70_reset_and_hazards.md R211). -/

namespace Sys2Proof.Claims

open Sys2Proof.Machine

/-! ## The word of a jump to an address of the memory -/

theorem toNat_setWidth_twelve {a : Word} (h : a.toNat < memSize) : (a.setWidth 12).toNat = a.toNat :=
  (BitVec.toNat_setWidth 12 a).trans (Nat.mod_eq_of_lt h)

theorem zext12_setWidth {a : Word} (h : a.toNat < memSize) : zext12 (a.setWidth 12) = a := by
  apply BitVec.eq_of_toNat_eq
  rw [zext12_toNat, toNat_setWidth_twelve h]

theorem encode_jp_setWidth {a : Word} (h : a.toNat < memSize) :
    encode (.jp (a.setWidth 12)) = 0x1000#16 ||| a := by
  apply BitVec.eq_of_toNat_eq
  rw [encode, wordNNN, BitVec.toNat_append, toNat_setWidth_twelve h, BitVec.toNat_or]
  rfl

/-! ## A completion that leaves `pc` where it is -/

theorem keepsAllBut_finish_pc (s : State) (redraw : Bool) :
    KeepsAllBut [.result] s (s.finish s.pc redraw) := by
  refine keepsAllBut_of_same fun p hp => ?_
  have hresult : p ≠ .result := by simpa using hp
  by_cases hpc : p = .pc
  · subst hpc
    exact State.finish_pc s s.pc redraw
  · exact (State.same_refl s p).finish hpc hresult s.pc redraw

theorem ended_finish_pc_iff (s : State) (redraw : Bool) : (s.finish s.pc redraw).Ended ↔ s.Ended :=
  Iff.rfl

/-- A word was fetched at `pc`, so that `pc` is one of the 12-bit addresses a JP can name. -/
theorem cycle_of_ended {s : State} (h : s.Ended) : s.cycle = .next (s.finish s.pc false) := by
  have hpc : s.pc.toNat < memSize := Nat.lt_of_succ_lt (State.fetch_eq_ok h).1
  have hdecode : decodeWord (0x1000#16 ||| s.pc) = .ok (.jp (s.pc.setWidth 12)) := by
    rw [← encode_jp_setWidth hpc]
    exact decodeWord_encode rfl
  rw [State.cycle_exec h hdecode, exec, execJp, zext12_setWidth hpc]

/-- Settles O55: the STEP is a cycle of the state with its inputs in place, which is ended as `s` is; it completes with
`pc` where it was (`cycle_of_ended`). -/
theorem jumpToSelfIsAFixedPoint : Obligations.JumpToSelfIsAFixedPoint := by
  unfold Obligations.JumpToSelfIsAFixedPoint
  intro s k r rest hended
  have hexecuting : (executing s k r rest).Ended := hended
  exact ⟨_, cycle_of_ended hexecuting, State.finish_result _ _ _, keepsAllBut_finish_pc _ _,
    (ended_finish_pc_iff _ _).mpr hexecuting⟩

end Sys2Proof.Claims
end
